-- ==== Sys2Proof/Word.lean ====
section
/-! DEFINITION. The word types of mini-core CORE (spec 00_scope.md R8, R10). -/

namespace Sys2Proof

/-- A general register, the program counter, an ALU operand or result: `XLEN` = 64 bits (R8, R20, R25). -/
abbrev Word := BitVec 64

/-- An instruction word: `ILEN` = 32 bits (R8, R70). -/
abbrev InstrWord := BitVec 32

/-- One byte of memory, the smallest addressable unit (R50). -/
abbrev Byte := BitVec 8

/-- A register index: a decoded 5-bit field, hence always in 0 .. 31 (R22, R76). -/
abbrev RegIdx := BitVec 5

end Sys2Proof
end

