-- ==== Sys2Proof/Syntax.lean ====
section
/-! DEFINITION. The instructions of mini-core CORE as syntax: every row of spec/opcode_table.json is a constructor of
`Instr`. Beside it the eight concrete ALU operations (41_alu.md R120) and a line of assembly (30_encoding.md R84). -/

namespace Sys2Proof

/-- The eight concrete ALU operations, in the spec's order (R120). No encoding selects `shl16` or `not` (R78). -/
inductive AluOp
  | add | sub | slt | sltu | and | or | shl16 | not
  deriving DecidableEq, Repr

/-- The six register-register instructions (42_rtype.md R141 to R146), operands in the order of their headings
(`add rd, rs, rt`), then the `shamt` field, which the word holds and no instruction uses (R73, R149). -/
inductive Instr
  | add (rd rs rt : RegIdx) (shamt : BitVec 5)
  | sub (rd rs rt : RegIdx) (shamt : BitVec 5)
  | and (rd rs rt : RegIdx) (shamt : BitVec 5)
  | or (rd rs rt : RegIdx) (shamt : BitVec 5)
  | slt (rd rs rt : RegIdx) (shamt : BitVec 5)
  | sltu (rd rs rt : RegIdx) (shamt : BitVec 5)
  deriving DecidableEq, Repr

/-- A line of assembly, `mnemonic $rd, $rs, $rt` (R84): the mnemonic and the three operands as written. It is what an
assembler reads, and the machine reads only words. -/
structure AsmLine where
  mnemonic : String
  rd : String
  rs : String
  rt : String
  deriving DecidableEq, Repr

end Sys2Proof
end

