-- ==== Sys2Proof/Config.lean ====
section
/-! DEFINITION. What an implementation of mini-core CORE fixes and the spec leaves open as a named parameter
(00_scope.md R8): the memory capacity, the funct table and the symbolic register names. -/

namespace Sys2Proof.Config

/-- The least memory capacity, one word (R51). -/
def minCapacity : Nat := 4

/-- `MEM_CAPACITY` is "far below 2^64 - 4" (R28): every capacity of the model lies below this bound. -/
def capacityLimit : Nat := 2 ^ 64 - 4

/-- The capacity of the machine that `State.reset` constructs. DESIGN CHOICE (log 1, unsafe for a claim about this
machine alone): `MEM_CAPACITY` is OPEN in the spec (R51, D1), and 4096 is what its test vectors take. Every state carries
its own capacity, so a statement about all states is about all capacities. -/
def memCapacity : Nat := 4096

/-- `FUNCT_TABLE`: a partial function from funct values to concrete ALU operations (R103), as a list of rows. -/
abbrev FunctTable := List (BitVec 6 × AluOp)

/-- The symbolic names the host's accessor knows (R23, R29, R181): `GPR_NAMES`, and `PC_NAME`, which the spec leaves
OPEN (D12) and which therefore is always an argument, never a string of the model's. -/
structure NameTable where
  gpr : List (String × RegIdx)
  pc : String
  deriving DecidableEq, Repr

end Sys2Proof.Config
end

