-- ==== Sys2Proof/WellFormed.lean ====
section
/-! DEFINITION. Well-formedness: of an instruction, of the parameters (00_scope.md R8) and of a line of assembly
(30_encoding.md R84). Each check has an ill-formed term in Sys2Proof/Tests/Slice0.lean that it refuses. -/

namespace Sys2Proof

/-- Every instruction is well-formed: "No other field is checked" beside opcode and funct (R81), the constructor fixes
both, and the types of the fields are their widths, so every index is in 0 .. 31 (R76). -/
def Instr.wellFormed : Instr → Bool
  | .add _ _ _ _ => true
  | .sub _ _ _ _ => true
  | .and _ _ _ _ => true
  | .or _ _ _ _ => true
  | .slt _ _ _ _ => true
  | .sltu _ _ _ _ => true

/-- No element stands twice in the list. -/
def distinct {α : Type} [DecidableEq α] : List α → Bool
  | [] => true
  | a :: rest => !rest.contains a && distinct rest

/-- A memory capacity the spec admits: at least one word (R51) and far below 2^64 - 4 (R28; log 25). -/
def Config.capacityOk (capacity : Nat) : Bool :=
  decide (Config.minCapacity ≤ capacity) && decide (capacity < Config.capacityLimit)

/-- A funct table is a partial function (R103): no funct value has two rows. -/
def Config.FunctTable.wellFormed (t : Config.FunctTable) : Bool :=
  distinct (t.map Prod.fst)

/-- The names of the registers are distinct. -/
def Config.NameTable.namesDistinct (n : Config.NameTable) : Bool :=
  distinct (n.gpr.map Prod.fst)

/-- Each general register has a symbolic name (R23). -/
def Config.NameTable.namesEvery (n : Config.NameTable) : Bool :=
  (List.range 32).all fun i => (n.gpr.map Prod.snd).contains (BitVec.ofNat 5 i)

/-- `PC_NAME` is "distinct from every GPR name" (R8). -/
def Config.NameTable.pcNameReserved (n : Config.NameTable) : Bool :=
  !(n.gpr.map Prod.fst).contains n.pc

def Config.NameTable.wellFormed (n : Config.NameTable) : Bool :=
  n.namesDistinct && n.namesEvery && n.pcNameReserved

/-- The mnemonics of the six instructions (opcode_table.json, R84). -/
def mnemonics : List String := ["add", "sub", "and", "or", "slt", "sltu"]

/-- A line of assembly is well-formed when its mnemonic is one of the six and each operand is a spelling of a register
(R84). `registers` lists the spellings: the names and the `$n`. -/
def AsmLine.wellFormed (registers : List (String × RegIdx)) (l : AsmLine) : Bool :=
  mnemonics.contains l.mnemonic &&
    [l.rd, l.rs, l.rt].all fun operand => (registers.map Prod.fst).contains operand

end Sys2Proof
end

