-- ==== Sys2Proof/Decode.lean ====
section
/-! DEFINITION. The instruction word: its fields (30_encoding.md R71), the funct table (R78), the decoder, total on any
bytes and rejecting by name (R79, R80), and the encoder (R83). Byte order is decided here once (20_memory.md R53). -/

namespace Sys2Proof

open Config (FunctTable)

/-! ## Byte order and fields -/

/-- The word of four bytes in rising addresses, big-endian: the first byte is bits 31:24 (R53, R54). -/
def wordOfBytes (b0 b1 b2 b3 : Byte) : InstrWord := b0 ++ b1 ++ b2 ++ b3

/-- The four bytes of a word in rising addresses, big-endian: bits 31:24 first (R53, R56). -/
def bytesOfWord (w : InstrWord) : List Byte :=
  [w.extractLsb' 24 8, w.extractLsb' 16 8, w.extractLsb' 8 8, w.extractLsb' 0 8]

def opcodeField (w : InstrWord) : BitVec 6 := w.extractLsb' 26 6
def rsField (w : InstrWord) : RegIdx := w.extractLsb' 21 5
def rtField (w : InstrWord) : RegIdx := w.extractLsb' 16 5
def rdField (w : InstrWord) : RegIdx := w.extractLsb' 11 5
def shamtField (w : InstrWord) : BitVec 5 := w.extractLsb' 6 5
def functField (w : InstrWord) : BitVec 6 := w.extractLsb' 0 6
/-- The immediate occupies the bits of `rd`, `shamt` and `funct` together (R71, conflict C5). -/
def immField (w : InstrWord) : BitVec 16 := w.extractLsb' 0 16

/-! ## The funct table -/

/-- The default `FUNCT_TABLE` (R78, R103). PRESUMED (log 2, unsafe): only the row of 0x20 is attested, the other five are
the spec's decision D2. -/
def functTable : FunctTable :=
  [(0x20, .add), (0x22, .sub), (0x24, .and), (0x25, .or), (0x2A, .slt), (0x2B, .sltu)]

/-- The strict table, only the attested row (R103). -/
def strictFunctTable : FunctTable := [(0x20, .add)]

/-- `FUNCT_TABLE[funct]`, or nothing where `funct` is outside its domain (R103, R104). -/
def lookupFunct (t : FunctTable) (funct : BitVec 6) : Option AluOp :=
  match t with
  | [] => none
  | (f, op) :: rest => if f = funct then some op else lookupFunct rest funct

/-! ## Decoder -/

/-- Why a word is not an instruction. -/
inductive WordError
  /-- `opcode` is not 0 (R79). -/
  | unsupportedOpcode (opcode : BitVec 6)
  /-- `opcode` is 0 and `funct` has no row (R80). -/
  | unsupportedFunct (funct : BitVec 6)
  deriving DecidableEq, Repr

/-- Why bytes are not an instruction. -/
inductive DecodeError
  /-- Fewer than the four bytes of a word (R70). The machine's fetch reads a whole word or faults. -/
  | truncated (available : Nat)
  /-- The four bytes are a word that is not an instruction. -/
  | illegal (e : WordError)
  deriving DecidableEq, Repr

/-- The instruction whose concrete ALU operation is `op` (R141 to R146). No instruction has `shl16` or `not` (R78). -/
def Instr.ofAluOp (op : AluOp) (rd rs rt : RegIdx) (shamt : BitVec 5) : Option Instr :=
  match op with
  | .add => some (.add rd rs rt shamt)
  | .sub => some (.sub rd rs rt shamt)
  | .and => some (.and rd rs rt shamt)
  | .or => some (.or rd rs rt shamt)
  | .slt => some (.slt rd rs rt shamt)
  | .sltu => some (.sltu rd rs rt shamt)
  | .shl16 => none
  | .not => none

/-- The instruction of a word: opcode first, then funct through the table, no other field checked (R77 to R81). -/
def decodeWord (w : InstrWord) : Except WordError Instr :=
  if opcodeField w = 0 then
    match (lookupFunct functTable (functField w)).bind
        fun op => Instr.ofAluOp op (rdField w) (rsField w) (rtField w) (shamtField w) with
    | some i => .ok i
    | none => .error (.unsupportedFunct (functField w))
  else .error (.unsupportedOpcode (opcodeField w))

/-- The decoder on bytes in rising addresses: one word, big-endian (R70), and the bytes after it. -/
def decode : List Byte → Except DecodeError (Instr × List Byte)
  | b0 :: b1 :: b2 :: b3 :: rest =>
    match decodeWord (wordOfBytes b0 b1 b2 b3) with
    | .ok i => .ok (i, rest)
    | .error e => .error (.illegal e)
  | short => .error (.truncated short.length)

/-! ## Encoder -/

/-- The funct code of each instruction (R78, R141 to R146). -/
def Instr.funct : Instr → BitVec 6
  | .add _ _ _ _ => 0b100000
  | .sub _ _ _ _ => 0b100010
  | .and _ _ _ _ => 0b100100
  | .or _ _ _ _ => 0b100101
  | .slt _ _ _ _ => 0b101010
  | .sltu _ _ _ _ => 0b101011

/-- The concrete ALU operation of each instruction (R78, R140). -/
def Instr.aluOp : Instr → AluOp
  | .add _ _ _ _ => .add
  | .sub _ _ _ _ => .sub
  | .and _ _ _ _ => .and
  | .or _ _ _ _ => .or
  | .slt _ _ _ _ => .slt
  | .sltu _ _ _ _ => .sltu

def Instr.rd : Instr → RegIdx
  | .add rd _ _ _ | .sub rd _ _ _ | .and rd _ _ _ | .or rd _ _ _ | .slt rd _ _ _ | .sltu rd _ _ _ => rd

def Instr.rs : Instr → RegIdx
  | .add _ rs _ _ | .sub _ rs _ _ | .and _ rs _ _ | .or _ rs _ _ | .slt _ rs _ _ | .sltu _ rs _ _ => rs

def Instr.rt : Instr → RegIdx
  | .add _ _ rt _ | .sub _ _ rt _ | .and _ _ rt _ | .or _ _ rt _ | .slt _ _ rt _ | .sltu _ _ rt _ => rt

def Instr.shamt : Instr → BitVec 5
  | .add _ _ _ sh | .sub _ _ _ sh | .and _ _ _ sh | .or _ _ _ sh | .slt _ _ _ sh | .sltu _ _ _ sh => sh

/-- The R-type word of its fields, assembled as R83 writes it: opcode 0 in bits 31:26 adds nothing. -/
def rTypeWord (rs rt rd : RegIdx) (shamt : BitVec 5) (funct : BitVec 6) : InstrWord :=
  (rs.setWidth 32 <<< 21) ||| (rt.setWidth 32 <<< 16) ||| (rd.setWidth 32 <<< 11) ||| (shamt.setWidth 32 <<< 6) |||
    funct.setWidth 32

/-- The word of an instruction (R83). -/
def encode (i : Instr) : InstrWord := rTypeWord i.rs i.rt i.rd i.shamt i.funct

/-- The bytes of an instruction, as memory holds them (R53, R83). -/
def encodeBytes (i : Instr) : List Byte := bytesOfWord (encode i)

/-! ## The opcode table's numbering of bits -/

/-- The word that has the bits of `w` below `nbits` and 0 above, bit 0 the least significant (opcode_table.json, R9). -/
def tableWord (nbits w : Nat) : InstrWord := BitVec.ofNat 32 (w % 2 ^ nbits)

/-- The decoder's reading of a word of the opcode table, laid out in bytes as memory holds it. -/
def decodeTableWord (nbits w : Nat) : Option Instr :=
  match decode (bytesOfWord (tableWord nbits w)) with
  | .ok (i, _) => some i
  | .error _ => none

end Sys2Proof
end

