-- ==== Sys2Proof/Machine/State.lean ====
section
/-! DEFINITION. The state of mini-core CORE (10_state.md, 20_memory.md R50), all plain data, and the machine right after
construction (R47, R220). -/

namespace Sys2Proof.Machine

/-! ## Stage (R30) -/

/-- The five stages. -/
inductive Stage
  | fetch | decode | execute | memoryAccess | writeBack
  deriving DecidableEq, Repr

/-! ## The control-signal bundle (R32) -/

/-- `aluOp`, the ALU operation class (R33). -/
inductive AluOpClass
  /-- "derive from function code". -/
  | useFunct
  /-- One concrete operation, without consulting `funct`; produced by no supported opcode (R106, log 5). -/
  | direct (op : AluOp)
  deriving DecidableEq, Repr

/-- `aluSrc`, the ALU's second operand (R34). -/
inductive AluSrc
  | register | immediate
  deriving DecidableEq, Repr

/-- An enable: `branch`, `jump`, `memRead`, `memWrite`, `regWrite` (R35, R36, R37, R39, R42). -/
inductive Enable
  | disabled | enabled
  deriving DecidableEq, Repr

/-- `wbSrc`, the write-back data source (R38). -/
inductive WbSrc
  | aluResult | memoryRead
  deriving DecidableEq, Repr

/-- `memWriteData`, where a store would take its data; the spec gives it one member (R40). -/
inductive MemWriteData
  | secondRegister
  deriving DecidableEq, Repr

/-- `regDst`, the register-destination selector (R41). -/
inductive RegDst
  | rt | rd
  deriving DecidableEq, Repr

/-- The bundle of ten selectors (R32). -/
structure ControlSignals where
  aluOp : AluOpClass
  aluSrc : AluSrc
  branch : Enable
  jump : Enable
  memRead : Enable
  wbSrc : WbSrc
  memWrite : Enable
  memWriteData : MemWriteData
  regDst : RegDst
  regWrite : Enable
  deriving DecidableEq, Repr

/-! ## The latches (R31) -/

/-- The orchestrator's latches, under the spec's names: `L.ir` is `latches.ir`, and so on. -/
structure Latches where
  ir : InstrWord
  opcode : BitVec 6
  rs : RegIdx
  rt : RegIdx
  rd : RegIdx
  shamt : BitVec 5
  funct : BitVec 6
  imm : BitVec 16
  simm : Word
  a : Word
  b : Word
  ctrl : ControlSignals
  op : AluOp
  alu : Word
  mem : Word
  wb : Word
  deriving DecidableEq, Repr

/-! ## Faults and refusals -/

/-- Where an out-of-bounds access stood (R203). -/
inductive FaultOrigin
  | stage (s : Stage)
  | hostLoad
  deriving DecidableEq, Repr

/-- The three fatal errors (R200 to R203) with what each records (D7, log 7). -/
inductive Fault
  /-- Raised by Decode's control-generation step when `opcode` is not 0 (R201). The spec's own fault, safe. -/
  | unsupportedOpcode (opcode : BitVec 6) (stage : Stage) (pc : Word)
  /-- Raised by Decode's resolve step when `funct` is outside the funct table (R202). The spec's own fault, safe. -/
  | unsupportedFunct (funct : BitVec 6) (stage : Stage) (pc : Word)
  /-- Raised by Fetch, or by the host's bulk load, at an address out of bounds (R203); the address is a natural number, since
  bounds arithmetic never wraps (R11, R52). The spec's own fault, safe. -/
  | outOfBounds (address : Nat) (origin : FaultOrigin)
  deriving DecidableEq, Repr

/-- Why the model gives a call no meaning. -/
inductive Refusal
  /-- Raised by a refused arm of `exec` for an instruction without a meaning. Safe. No arm does. -/
  | notModelled (mnemonic : String)
  /-- Raised by an Execute call, a bulk load or a preset on a halted machine: "the call is refused and changes nothing"
  (R173; log 20). Safe. -/
  | machineHalted
  /-- Raised by the MemoryAccess stage when `memRead` or `memWrite` is enabled: "a model that meets them refuses the step"
  (R165, D25; log 22). Unreachable from construction. Safe. -/
  | memoryAccessEnabled
  /-- Raised by a bulk load or a preset after the first Execute call: "A model refuses a host write after execution has
  begun" (R179; log 9). Safe. -/
  | hostWriteAfterBegin
  deriving DecidableEq, Repr

/-- The run status (R46). -/
inductive RunStatus
  | running
  | halted (f : Fault)
  deriving DecidableEq, Repr

/-! ## Memory and the machine -/

/-- The memory array (R50): its fixed capacity `MEM_CAPACITY` (R51, log 1) and its contents, listed as (address, byte)
pairs in one canonical form (`Memory.wf`, Machine/Ops.lean): addresses strictly rising, and no byte equal to what an
unlisted address holds. -/
structure Memory where
  capacity : Nat
  cells : List Host.Cell
  deriving DecidableEq, Repr

/-- The machine: register file (R20), program counter (R25), memory (R50), stage (R30), latches (R31), run status (R46),
and whether an Execute call has been made, which R177 to R179 ask of the model (log 9). -/
structure State where
  regs : Vector Word 32
  pc : Word
  mem : Memory
  stage : Stage
  latches : Latches
  status : RunStatus
  begun : Bool
  deriving DecidableEq, Repr

/-- Every selector's value after construction: `aluOp = UseFunct`, every other field its first listed member (R47). -/
def ControlSignals.initial : ControlSignals where
  aluOp := .useFunct
  aluSrc := .register
  branch := .disabled
  jump := .disabled
  memRead := .disabled
  wbSrc := .aluResult
  memWrite := .disabled
  memWriteData := .secondRegister
  regDst := .rt
  regWrite := .disabled

/-- Every latch's value after construction (R47, D17, log 15). -/
def Latches.initial : Latches where
  ir := 0
  opcode := 0
  rs := 0
  rt := 0
  rd := 0
  shamt := 0
  funct := 0
  imm := 0
  simm := 0
  a := 0
  b := 0
  ctrl := .initial
  op := .add
  alu := 0
  mem := 0
  wb := 0

/-- Initialization: "a default machine with zeroed registers and zeroed memory of fixed capacity" (R47, R177, R220). -/
def State.construct (capacity : Nat) : State where
  regs := Vector.replicate 32 0
  pc := 0
  mem := { capacity := capacity, cells := [] }
  stage := .fetch
  latches := .initial
  status := .running
  begun := false

/-- The machine right after reset, the only reset being construction (R220). Its capacity is `Config.memCapacity` (log 1). -/
def State.reset : State := .construct Config.memCapacity

end Sys2Proof.Machine
end

