-- ==== Sys2Proof/Machine/Flags.lean ====
section
/-! DEFINITION. The hardware has no flags, condition codes or predicate registers (10_state.md R44): no instruction
computes a flag, no carry or overflow indication exists, and this file declares none. What the spec computes as a truth
value are the two comparisons of set-less-than (R11, R124, R125), written here. -/

namespace Sys2Proof.Machine

/-- `a <s b`: both operands as two's-complement integers (R10, R11, R124). -/
def lessSigned (a b : Word) : Bool := decide (a.toInt < b.toInt)

/-- `a <u b`: the raw bit patterns (R10, R11, R125). -/
def lessUnsigned (a b : Word) : Bool := decide (a.toNat < b.toNat)

/-- The result of a set-less-than: 1 when the comparison holds, else 0, zero-extended to 64 bits (R124, R125). PRESUMED
(log 4, unsafe): the spec's decision D4. -/
def setLess (c : Bool) : Word := if c then 1 else 0

end Sys2Proof.Machine
end

