-- ==== Sys2Proof/Machine/Alu.lean ====
section
/-! DEFINITION. The 64-bit ALU (41_alu.md R120 to R129): a pure function, no flag, no fault. -/

namespace Sys2Proof.Machine

/-- One result for each of the eight operations. `add` and `sub` are "unchecked 64-bit wraparound arithmetic" (R122,
R123, conflict C6); `shl16` ignores its first operand (R128), `not` its second (R129). -/
def evalAlu (op : AluOp) (a b : Word) : Word :=
  match op with
  | .add => a + b
  | .sub => a - b
  | .slt => setLess (lessSigned a b)
  | .sltu => setLess (lessUnsigned a b)
  | .and => a &&& b
  | .or => a ||| b
  | .shl16 => b <<< 16
  | .not => ~~~a

end Sys2Proof.Machine
end

