-- ==== Sys2Proof/Machine/Control.lean ====
section
/-! DEFINITION. The control signal generator and the ALU control resolver (40_control.md R100 to R106), pure functions. -/

namespace Sys2Proof.Machine

open Config (FunctTable)

/-- `BUNDLE_R`, the bundle of opcode 0 (R100). PRESUMED (log 3, unsafe): `regDst = Rd` is the spec's decision D3, the other
values it derives or takes from the source. -/
def rTypeBundle : ControlSignals where
  aluOp := .useFunct
  aluSrc := .register
  branch := .disabled
  jump := .disabled
  memRead := .disabled
  wbSrc := .aluResult
  memWrite := .disabled
  memWriteData := .secondRegister
  regDst := .rd
  regWrite := .enabled

/-- `ControlFor(opcode)`: the bundle of opcode 0, and none for any other, never a default (R101). -/
def controlFor (opcode : BitVec 6) : Option ControlSignals :=
  if opcode = 0 then some rTypeBundle else none

/-- `ResolveAluOp(aluOp, funct)`: through the funct table, which is a parameter (R103), or directly (R104). -/
def resolveAluOp (t : FunctTable) (aluOp : AluOpClass) (funct : BitVec 6) : Option AluOp :=
  match aluOp with
  | .useFunct => lookupFunct t funct
  | .direct op => some op

end Sys2Proof.Machine
end

