-- ==== Sys2Proof/Machine/Ops.lean ====
section
/-! DEFINITION. The named operations over memory, registers and the other state (00_scope.md R12 to R15), and the one
operation that raises a fatal error (R14, R205). -/

namespace Sys2Proof.Machine

/-! ## Memory cells -/

/-- What a byte that nothing has written holds: memory is zero-initialized (R50, R63). -/
def Memory.unlisted : Byte := 0

/-- The byte the list holds at `a`. -/
def readCell (a : Nat) : List Host.Cell → Byte
  | [] => Memory.unlisted
  | (a', b') :: rest => if a = a' then b' else readCell a rest

/-- A cell in front of the cells above it; a byte equal to what an unlisted address holds is not listed. -/
def consCell (a : Nat) (b : Byte) (above : List Host.Cell) : List Host.Cell :=
  if b = Memory.unlisted then above else (a, b) :: above

/-- The list with byte `b` at `a`, in canonical form again. -/
def writeCell (a : Nat) (b : Byte) : List Host.Cell → List Host.Cell
  | [] => consCell a b []
  | (a', b') :: rest =>
    if a < a' then consCell a b ((a', b') :: rest)
    else if a = a' then consCell a b rest
    else (a', b') :: writeCell a b rest

/-- The canonical form: addresses strictly rising from `low`, all below `high`, no byte that an unlisted address holds. -/
def cellsOk (low high : Nat) : List Host.Cell → Bool
  | [] => true
  | (a, b) :: rest =>
    decide (low ≤ a) && decide (a < high) && decide (b ≠ Memory.unlisted) && cellsOk (a + 1) high rest

/-- A well-formed memory: a capacity the spec admits (R51, R28) and cells in canonical form inside it (R50). -/
def Memory.wf (m : Memory) : Bool :=
  Config.capacityOk m.capacity && cellsOk 0 m.capacity m.cells

/-! ## Memory access (20_memory.md) -/

/-- The byte at an address. Every access of the machine checks its bounds first; beyond the capacity nothing is ever listed. -/
def Memory.byteAt (m : Memory) (a : Nat) : Byte := readCell a m.cells

/-- The memory with byte `b` at `a`, bounds aside. -/
def Memory.setByte (m : Memory) (a : Nat) (b : Byte) : Memory :=
  { m with cells := writeCell a b m.cells }

/-- A word access at `a` is in bounds exactly when `a + 3 < MEM_CAPACITY`, without wrap (R52, D10). -/
def Memory.wordInBounds (m : Memory) (a : Nat) : Bool := decide (a + 3 < m.capacity)

/-- A byte access at `a` is in bounds exactly when `a < MEM_CAPACITY` (R58, D13). -/
def Memory.byteInBounds (m : Memory) (a : Nat) : Bool := decide (a < m.capacity)

/-- `load_word(a)`, `MemRead(a, 4)`: big-endian, any alignment; nothing when out of bounds (R54, R57). -/
def Memory.loadWord (m : Memory) (a : Nat) : Option InstrWord :=
  if m.wordInBounds a then
    some (wordOfBytes (m.byteAt a) (m.byteAt (a + 1)) (m.byteAt (a + 2)) (m.byteAt (a + 3)))
  else none

/-- Bytes written one after another at rising addresses, bounds aside. -/
def Memory.setBytes (m : Memory) (a : Nat) : List Byte → Memory
  | [] => m
  | b :: bs => (m.setByte a b).setBytes (a + 1) bs

/-- `store_word(a, w)`, `MemWrite(a, 4, w)`: big-endian, any alignment; nothing, and no byte written, when out of bounds
(R52, R56, R57). -/
def Memory.storeWord (m : Memory) (a : Nat) (w : InstrWord) : Option Memory :=
  if m.wordInBounds a then some (m.setBytes a (bytesOfWord w)) else none

/-- `MemWrite(a, 1, b)`: the host's byte write; nothing when out of bounds (R58). -/
def Memory.storeByte (m : Memory) (a : Nat) (b : Byte) : Option Memory :=
  if m.byteInBounds a then some (m.setByte a b) else none

/-- The host's load of a word sequence: `MemWrite(a + 4k, 4, wk)` for each k in order (R58). It answers the memory as it
stands and the address at which an access was out of bounds, if one was; the words before it are then written (R14, log 24). -/
def Memory.loadWords (m : Memory) (a : Nat) : List InstrWord → Memory × Option Nat
  | [] => (m, none)
  | w :: ws =>
    match m.storeWord a w with
    | none => (m, some a)
    | some m' => m'.loadWords (a + 4) ws

/-- The host's load of a byte sequence: `MemWrite(a + k, 1, bk)` for each k in order (R58), as `Memory.loadWords`. -/
def Memory.loadBytes (m : Memory) (a : Nat) : List Byte → Memory × Option Nat
  | [] => (m, none)
  | b :: bs =>
    match m.storeByte a b with
    | none => (m, some a)
    | some m' => m'.loadBytes (a + 1) bs

/-! ## Registers, pc and the other fields (R12) -/

/-- `x[i]`. Register 0 is an ordinary register (R21). -/
def State.readReg (s : State) (i : RegIdx) : Word := s.regs[i.toNat]'i.isLt

/-- `x[i] <- v`, register 0 like every other (R21). -/
def State.writeReg (s : State) (i : RegIdx) (v : Word) : State :=
  { s with regs := s.regs.set i.toNat v i.isLt }

def State.setPc (s : State) (v : Word) : State := { s with pc := v }

def State.setMem (s : State) (m : Memory) : State := { s with mem := m }

def State.setStage (s : State) (st : Stage) : State := { s with stage := st }

def State.setLatches (s : State) (l : Latches) : State := { s with latches := l }

def State.setStatus (s : State) (r : RunStatus) : State := { s with status := r }

/-- An Execute call has been made (R177, R179). -/
def State.markBegun (s : State) : State := { s with begun := true }

/-- `pc <- pc + 4`, modulo 2^64 (R26, D11). -/
def State.advancePc (s : State) : State := s.setPc (s.pc + 4)

/-! ## Stages (R30) -/

/-- The successor of a stage; it is cyclic (R30). -/
def Stage.next : Stage → Stage
  | .fetch => .decode
  | .decode => .execute
  | .execute => .memoryAccess
  | .memoryAccess => .writeBack
  | .writeBack => .fetch

/-- How many stages of the current instruction are still to run, this one included (R169, R171). -/
def Stage.remaining : Stage → Nat
  | .fetch => 5
  | .decode => 4
  | .execute => 3
  | .memoryAccess => 2
  | .writeBack => 1

/-! ## Raising a fatal error (R14, R205) -/

/-- How a stage's work, or a call, ends: it completes; it raises a fatal error, with the machine as it then stands; or the
model refuses it. -/
inductive Work
  | done (s : State)
  | raised (f : Fault) (s : State)
  | refused (r : Refusal)
  deriving DecidableEq, Repr

/-- `raise Fault(kind, info)`: the operation stops where it stands and the run status becomes `Halted` (R14, R205). There
is no trap entry: nothing is saved, no mode changes, control goes nowhere (R209), and nothing returns from it (R210). -/
def raiseFault (f : Fault) (s : State) : Work := .raised f (s.setStatus (.halted f))

/-- The spec's cause codes (R201 to R203, D7). -/
def Fault.code : Fault → Nat
  | .unsupportedOpcode _ _ _ => 1
  | .unsupportedFunct _ _ _ => 2
  | .outOfBounds _ _ => 3

/-- Go on only after completion: a fault or a refusal ends the call (R167, R170). -/
def Work.andThen (w : Work) (k : State → Work) : Work :=
  match w with
  | .done s => k s
  | .raised f s => .raised f s
  | .refused r => .refused r

/-- The outcome of a call as the host's interface tells it; a halted run is a fault outcome (R205, log 6). -/
def Work.outcome : Work → Host.Outcome State Fault Refusal
  | .done s => .next s
  | .raised f _ => .fault f
  | .refused r => .refused r

end Sys2Proof.Machine
end

