-- ==== Sys2Proof/Machine/Operands.lean ====
section
/-! DEFINITION. The operand forms: the sign-extended immediate (30_encoding.md R75), the ALU's second operand (R34, R76),
the destination register (R41, R76) and the write-back value (R38). -/

namespace Sys2Proof.Machine

/-- `sext_64(imm)`: zeros above when bit 15 is 0, else ones; not scaled (R75). -/
def signExtendImm (imm : BitVec 16) : Word :=
  if imm.getLsbD 15 then BitVec.allOnes 48 ++ imm else (0 : BitVec 48) ++ imm

/-- The immediate of an R-type word: `rd`, `shamt` and `funct` together (R71). -/
def rTypeImm (rd : RegIdx) (shamt : BitVec 5) (funct : BitVec 6) : BitVec 16 := rd ++ shamt ++ funct

/-- The ALU's second operand: `L.b` or the immediate, by `aluSrc` (R34, R76, R121). -/
def Latches.secondOperand (l : Latches) : Word :=
  match l.ctrl.aluSrc with
  | .register => l.b
  | .immediate => l.simm

/-- The destination register, by `regDst` (R41, R76). -/
def Latches.destination (l : Latches) : RegIdx :=
  match l.ctrl.regDst with
  | .rt => l.rt
  | .rd => l.rd

/-- The value WriteBack commits, by `wbSrc` (R38). -/
def Latches.writeBackValue (l : Latches) : Word :=
  match l.ctrl.wbSrc with
  | .aluResult => l.alu
  | .memoryRead => l.mem

end Sys2Proof.Machine
end

