-- ==== Sys2Proof/Machine/RType.lean ====
section
/-! DEFINITION. The meanings of the six register-register instructions (42_rtype.md R140 to R149): what Decode, Execute,
MemoryAccess and WriteBack of the instruction leave, from the machine as Fetch left it. -/

namespace Sys2Proof.Machine

/-- The latches after the instruction (R140): the fields, the bundle of opcode 0, the two values read, the operation, its
result and the value committed. `L.ir` is Fetch's and `L.mem` is written by no stage (R31). -/
def Latches.ofRType (l : Latches) (op : AluOp) (funct : BitVec 6) (rd rs rt : RegIdx) (shamt : BitVec 5)
    (a b : Word) : Latches :=
  { l with
    opcode := 0
    rs := rs
    rt := rt
    rd := rd
    shamt := shamt
    funct := funct
    imm := rTypeImm rd shamt funct
    simm := signExtendImm (rTypeImm rd shamt funct)
    a := a
    b := b
    ctrl := rTypeBundle
    op := op
    alu := evalAlu op a b
    wb := evalAlu op a b }

/-- The common behaviour of the family (R140): both operands read, the result written to `x[rd]`, `pc` advanced, the next
stage Fetch. No memory byte changes and `shamt` is only latched (R149). -/
def rTypeEffect (op : AluOp) (funct : BitVec 6) (rd rs rt : RegIdx) (shamt : BitVec 5) (s : State) : State :=
  let a := s.readReg rs
  let b := s.readReg rt
  let latched := s.setLatches (s.latches.ofRType op funct rd rs rt shamt a b)
  (latched.writeReg rd (evalAlu op a b)).advancePc.setStage .fetch

/-- `add rd, rs, rt` (R141): `x[rd] <- (x[rs] + x[rt]) mod 2^64`. -/
def execAdd (rd rs rt : RegIdx) (shamt : BitVec 5) (s : State) : Host.Outcome State Fault Refusal :=
  .next (rTypeEffect .add 0x20 rd rs rt shamt s)

/-- `sub rd, rs, rt` (R142): `x[rd] <- (x[rs] - x[rt]) mod 2^64`. -/
def execSub (rd rs rt : RegIdx) (shamt : BitVec 5) (s : State) : Host.Outcome State Fault Refusal :=
  .next (rTypeEffect .sub 0x22 rd rs rt shamt s)

/-- `and rd, rs, rt` (R143): `x[rd] <- x[rs] & x[rt]`. -/
def execAnd (rd rs rt : RegIdx) (shamt : BitVec 5) (s : State) : Host.Outcome State Fault Refusal :=
  .next (rTypeEffect .and 0x24 rd rs rt shamt s)

/-- `or rd, rs, rt` (R144): `x[rd] <- x[rs] | x[rt]`. -/
def execOr (rd rs rt : RegIdx) (shamt : BitVec 5) (s : State) : Host.Outcome State Fault Refusal :=
  .next (rTypeEffect .or 0x25 rd rs rt shamt s)

/-- `slt rd, rs, rt` (R145): `x[rd] <- (signed(x[rs]) < signed(x[rt])) ? 1 : 0`. -/
def execSlt (rd rs rt : RegIdx) (shamt : BitVec 5) (s : State) : Host.Outcome State Fault Refusal :=
  .next (rTypeEffect .slt 0x2A rd rs rt shamt s)

/-- `sltu rd, rs, rt` (R146): `x[rd] <- (unsigned(x[rs]) < unsigned(x[rt])) ? 1 : 0`. -/
def execSltu (rd rs rt : RegIdx) (shamt : BitVec 5) (s : State) : Host.Outcome State Fault Refusal :=
  .next (rTypeEffect .sltu 0x2B rd rs rt shamt s)

end Sys2Proof.Machine
end

