-- ==== Sys2Proof/Machine/Dispatch.lean ====
section
/-! DEFINITION. The one match from an instruction to its meaning, one arm per constructor of `Instr`. -/

namespace Sys2Proof.Machine

def exec (i : Instr) (s : State) : Host.Outcome State Fault Refusal :=
  match i with
  | .add rd rs rt shamt => Sys2Proof.Machine.execAdd rd rs rt shamt s
  | .sub rd rs rt shamt => Sys2Proof.Machine.execSub rd rs rt shamt s
  | .and rd rs rt shamt => Sys2Proof.Machine.execAnd rd rs rt shamt s
  | .or rd rs rt shamt => Sys2Proof.Machine.execOr rd rs rt shamt s
  | .slt rd rs rt shamt => Sys2Proof.Machine.execSlt rd rs rt shamt s
  | .sltu rd rs rt shamt => Sys2Proof.Machine.execSltu rd rs rt shamt s

end Sys2Proof.Machine
end

