-- ==== Sys2Proof/Machine/Fetch.lean ====
section
/-! DEFINITION. From the bytes at `pc` to an instruction: Fetch and the checks of Decode (44_orchestrator.md R162, R163), for
`step`, which runs a whole instruction. -/

namespace Sys2Proof.Machine

/-- The machine after Fetch: the word in `L.ir`, Decode the next stage (R162, R167). -/
def State.afterFetch (s : State) (w : InstrWord) : State :=
  (s.setLatches { s.latches with ir := w }).setStage .decode

/-- The fault that a word's rejection by the decoder is, at this `pc` (R201, R202). -/
def wordFault (pc : Word) : WordError → Fault
  | .unsupportedOpcode opcode => .unsupportedOpcode opcode .decode pc
  | .unsupportedFunct funct => .unsupportedFunct funct .decode pc

/-- The instruction at `pc` and the machine after Fetch, or the first of the three fatal errors in the order of R208. -/
def fetchInstr (s : State) : Except Fault (Instr × State) :=
  match s.mem.loadWord s.pc.toNat with
  | none => .error (.outOfBounds s.pc.toNat (.stage .fetch))
  | some w =>
    match decodeWord w with
    | .error e => .error (wordFault s.pc e)
    | .ok i => .ok (i, s.afterFetch w)

/-- The machine with a word stored where the next instruction is fetched from, ready to fetch: what a host's load of the
word at `pc` before the Execute call leaves (R177, R223, log 23). A `pc` out of bounds has no place for it. -/
def State.placeWord (s : State) (w : InstrWord) : State :=
  let ready := (s.setStage .fetch).setStatus .running
  match s.mem.storeWord s.pc.toNat w with
  | some m => ready.setMem m
  | none => ready

end Sys2Proof.Machine
end

