-- ==== Sys2Proof/Machine/Stages.lean ====
section
/-! DEFINITION. The stage state machine and its two execution modes (44_orchestrator.md R162 to R173), stage by stage as the
spec writes them. The funct table is an argument (R103): `step` uses the default, and the strict table is another value. -/

namespace Sys2Proof.Machine

open Config (FunctTable)

/-! ## The work of each stage -/

/-- Fetch: `L.ir <- MemRead(pc, 4)` (R162); no alignment check, `pc` unchanged. -/
def fetchWork (s : State) : Work :=
  match s.mem.loadWord s.pc.toNat with
  | some w => .done (s.setLatches { s.latches with ir := w })
  | none => raiseFault (.outOfBounds s.pc.toNat (.stage .fetch)) s

/-- The first part of Decode: the fields of `L.ir` and the sign-extended immediate (R163). -/
def Latches.withFields (l : Latches) : Latches :=
  { l with
    opcode := opcodeField l.ir
    rs := rsField l.ir
    rt := rtField l.ir
    rd := rdField l.ir
    shamt := shamtField l.ir
    funct := functField l.ir
    imm := immField l.ir
    simm := signExtendImm (immField l.ir) }

/-- Decode, in the spec's order: fields, control signals, register reads, concrete operation (R163). A fault leaves what
was latched before it (R14, R202). -/
def decodeWork (t : FunctTable) (s : State) : Work :=
  let fields := s.latches.withFields
  match controlFor fields.opcode with
  | none => raiseFault (.unsupportedOpcode fields.opcode .decode s.pc) (s.setLatches fields)
  | some ctrl =>
    let read := { fields with ctrl := ctrl, a := s.readReg fields.rs, b := s.readReg fields.rt }
    match resolveAluOp t ctrl.aluOp fields.funct with
    | none => raiseFault (.unsupportedFunct fields.funct .decode s.pc) (s.setLatches read)
    | some op => .done (s.setLatches { read with op := op })

/-- Execute: `L.alu <- ALU(L.op, L.a, second operand)` (R164, R121). -/
def executeWork (s : State) : Work :=
  .done (s.setLatches { s.latches with alu := evalAlu s.latches.op s.latches.a s.latches.secondOperand })

/-- MemoryAccess: nothing with loads and stores disabled; refused otherwise, which no reachable state is (R165, D25, log 22). -/
def memoryAccessWork (s : State) : Work :=
  if s.latches.ctrl.memRead = .enabled ∨ s.latches.ctrl.memWrite = .enabled then .refused .memoryAccessEnabled
  else .done s

/-- WriteBack: select the value, write the register if enabled, then advance `pc` unconditionally (R166). -/
def writeBackWork (s : State) : Work :=
  let v := s.latches.writeBackValue
  let latched := s.setLatches { s.latches with wb := v }
  let written :=
    if s.latches.ctrl.regWrite = .enabled then latched.writeReg s.latches.destination v else latched
  .done written.advancePc

/-- The work of a stage (R162 to R166). -/
def stageWork (t : FunctTable) (st : Stage) (s : State) : Work :=
  match st with
  | .fetch => fetchWork s
  | .decode => decodeWork t s
  | .execute => executeWork s
  | .memoryAccess => memoryAccessWork s
  | .writeBack => writeBackWork s

/-- `RunStage()`: the stage's work, then `stage` to its successor; a fault leaves `stage` (R167, D6). -/
def runStage (t : FunctTable) (s : State) : Work :=
  (stageWork t s.stage s).andThen fun s' => .done (s'.setStage s.stage.next)

/-- `n` stages one after another; a fault in any ends the call there (R170). -/
def runStages (t : FunctTable) : Nat → State → Work
  | 0, s => .done s
  | n + 1, s => (runStage t s).andThen (runStages t n)

/-- `while stage != Fetch: RunStage()` (R170), for at most `fuel` stages; four are always enough (R30). -/
def finishInFlight (t : FunctTable) : Nat → State → Work
  | 0, s => .done s
  | fuel + 1, s => if s.stage = .fetch then .done s else (runStage t s).andThen (finishInFlight t fuel)

/-! ## The execution modes -/

/-- An Execute call needs run status Running; on a halted machine it is refused (R168, R170, R173). -/
def whenRunning (s : State) (call : State → Work) : Work :=
  match s.status with
  | .running => call s.markBegun
  | .halted _ => .refused .machineHalted

/-- Execute-stage(): exactly one stage (R168). -/
def executeStage (t : FunctTable) (s : State) : Work := whenRunning s (runStage t)

/-- The work of Execute-instruction() on a running machine: finish the instruction in flight and return, or, at Fetch, run
five stages (R170). -/
def runInstruction (t : FunctTable) (s : State) : Work :=
  if s.stage = .fetch then runStages t 5 s else finishInFlight t 4 s

/-- Execute-instruction() (R170). -/
def executeInstruction (t : FunctTable) (s : State) : Work := whenRunning s (runInstruction t)

/-- `n` Execute-stage() calls one after another, ending at the first that does not complete (R169, R172). -/
def executeStages (t : FunctTable) : Nat → State → Work
  | 0, s => .done s
  | n + 1, s => (executeStage t s).andThen (executeStages t n)

end Sys2Proof.Machine
end

