-- ==== Sys2Proof/Machine/Step.lean ====
section
/-! DEFINITION. One step of the machine is one Execute-instruction() call (44_orchestrator.md R170; log 18): a whole
instruction from Fetch, or the rest of the one in flight. Execute-stage() is `executeStage` of Machine/Stages.lean. -/

namespace Sys2Proof.Machine

/-- Execute-instruction() (R170): refused on a halted machine (R173); at Fetch, the instruction at `pc` is fetched, decoded
and run; in mid-cycle, the stages left of the instruction in flight are run and no other (R171). -/
def step (s : State) : Host.Outcome State Fault Refusal :=
  match s.status with
  | .halted _ => .refused .machineHalted
  | .running =>
    if s.stage = .fetch then
      match fetchInstr s.markBegun with
      | .ok (i, s') => exec i s'
      | .error f => .fault f
    else (finishInFlight functTable 4 s.markBegun).outcome

/-- The machine with the opcode table's word `w` stored where `step` fetches its next instruction (log 23). -/
def State.withFetchWord (s : State) (nbits w : Nat) : State := s.placeWord (tableWord nbits w)

end Sys2Proof.Machine
end

