-- ==== Sys2Proof/Machine/HostInterface.lean ====
section
/-! DEFINITION. The host interface (44_orchestrator.md R175 to R183): the calls the host can make on a constructed machine,
each run to completion before the host acts again, and the runs they make up. Initialization is `State.construct`. -/

namespace Sys2Proof.Machine

open Config (FunctTable NameTable)

/-! ## Register names (R23, R29) -/

/-- The default `GPR_NAMES`, the MIPS conventional names (R23). PRESUMED (log 12, unsafe for a claim about a name): only
`$t1` is attested. -/
def defaultGprNames : List (String × RegIdx) :=
  [("$zero", 0), ("$at", 1), ("$v0", 2), ("$v1", 3), ("$a0", 4), ("$a1", 5), ("$a2", 6), ("$a3", 7)] ++
  [("$t0", 8), ("$t1", 9), ("$t2", 10), ("$t3", 11), ("$t4", 12), ("$t5", 13), ("$t6", 14), ("$t7", 15)] ++
  [("$s0", 16), ("$s1", 17), ("$s2", 18), ("$s3", 19), ("$s4", 20), ("$s5", 21), ("$s6", 22), ("$s7", 23)] ++
  [("$t8", 24), ("$t9", 25), ("$k0", 26), ("$k1", 27), ("$gp", 28), ("$sp", 29), ("$fp", 30), ("$ra", 31)]

/-- The default names with a `PC_NAME`, which the spec leaves open (D12). -/
def defaultNames (pcName : String) : NameTable := { gpr := defaultGprNames, pc := pcName }

/-- The register a name stands for in a table. -/
def lookupName (table : List (String × RegIdx)) (name : String) : Option RegIdx :=
  match table with
  | [] => none
  | (n, i) :: rest => if n = name then some i else lookupName rest name

/-! ## Get-register (R180 to R182) -/

/-- The key of Get-register(name-or-index). -/
inductive RegKey
  | name (n : String)
  | index (i : Nat)
  deriving DecidableEq, Repr

/-- Get-register(key): a register's committed value, or no value for an unknown name or index, which is no fault (R180 to
R182, R204). It reads no latch. -/
def getRegister (names : NameTable) (key : RegKey) (s : State) : Option Word :=
  match key with
  | .name n =>
    if n = names.pc then some s.pc
    else (lookupName names.gpr n).map s.readReg
  | .index i => if i < 32 then some (s.readReg (BitVec.ofNat 5 i)) else none

/-! ## The calls (R176) -/

/-- A call the host makes on a constructed machine. -/
inductive HostCall
  /-- Bulk load of a word sequence at a base address (R58, R177). -/
  | loadWords (base : Word) (words : List InstrWord)
  /-- Bulk load of a byte sequence at a base address (R58, R177). -/
  | loadBytes (base : Word) (bytes : List Byte)
  /-- Preset of a general register (R178). -/
  | presetReg (i : RegIdx) (v : Word)
  /-- Preset of `pc` (R178). -/
  | presetPc (v : Word)
  /-- Execute-instruction() (R170). -/
  | executeInstruction
  /-- Execute-stage() (R168). -/
  | executeStage
  /-- Get-register(name-or-index) (R180). -/
  | getRegister (key : RegKey)
  deriving DecidableEq, Repr

/-- What a call answers. -/
inductive Answer
  | completed
  | value (v : Option Word)
  | fault (f : Fault)
  | refused (r : Refusal)
  deriving DecidableEq, Repr

/-- A host write is made on a running machine before the first Execute call, and refused otherwise (R177 to R179, log 9;
on a halted machine log 20). -/
def whenLoading (s : State) (write : State → Work) : Work :=
  match s.status with
  | .halted _ => .refused .machineHalted
  | .running => if s.begun then .refused .hostWriteAfterBegin else write s

/-- A bulk load's end: an access out of bounds is a fatal error, with what was written before it (R177, R203, log 24). -/
def loadWork (s : State) (loaded : Memory × Option Nat) : Work :=
  match loaded.2 with
  | none => .done (s.setMem loaded.1)
  | some a => raiseFault (.outOfBounds a .hostLoad) (s.setMem loaded.1)

/-- The work of a call other than Get-register. -/
def hostWork (t : FunctTable) (c : HostCall) (s : State) : Work :=
  match c with
  | .loadWords base words => whenLoading s fun s => loadWork s (s.mem.loadWords base.toNat words)
  | .loadBytes base bytes => whenLoading s fun s => loadWork s (s.mem.loadBytes base.toNat bytes)
  | .presetReg i v => whenLoading s fun s => .done (s.writeReg i v)
  | .presetPc v => whenLoading s fun s => .done (s.setPc v)
  | .executeInstruction => executeInstruction t s
  | .executeStage => executeStage t s
  | .getRegister _ => .done s

/-- The machine after a call's work: as it stands at a fault (R205), unchanged by a refusal (R173). -/
def Work.after (w : Work) (s : State) : State :=
  match w with
  | .done s' => s'
  | .raised _ s' => s'
  | .refused _ => s

def Work.answer : Work → Answer
  | .done _ => .completed
  | .raised f _ => .fault f
  | .refused r => .refused r

/-- One host call: the machine after it (R161, R175). -/
def hostCall (t : FunctTable) (c : HostCall) (s : State) : State := (hostWork t c s).after s

/-- One host call: what it answers (R176). -/
def hostAnswer (t : FunctTable) (names : NameTable) (c : HostCall) (s : State) : Answer :=
  match c with
  | .getRegister key => .value (getRegister names key s)
  | _ => (hostWork t c s).answer

/-! ## Runs (R183) -/

/-- Whether a refused call marks the whole run refused: "the model has no meaning and marks the run refused"
(93_implementation_defined.md, `refuse`: U5, U17; log 9). An Execute call, or a host write, on a halted machine does not:
U18 has no step there, and the run's outcome stays the fault (R173; log 20). -/
def Refusal.marksRun (r : Refusal) : Bool := decide (r ≠ .machineHalted)

/-- A call within a run: the machine after it, or the refusal that marks the run refused (R173, R179). -/
def Work.inRun (w : Work) (s : State) : Except Refusal State :=
  match w with
  | .done s' => .ok s'
  | .raised _ s' => .ok s'
  | .refused r => if r.marksRun then .error r else .ok s

/-- A run is a sequence of host calls, each on the machine the one before it left (R183). A call that marks the run refused
ends it: no later call has a meaning (R179, D9). -/
def hostCalls (t : FunctTable) : List HostCall → State → Except Refusal State
  | [], s => .ok s
  | c :: cs, s =>
    match (hostWork t c s).inRun s with
    | .ok s' => hostCalls t cs s'
    | .error r => .error r

/-- The outcome of a run: the state after its last call if the run status is then Running, a fault if it is Halted (R183),
and no state at all of a run marked refused (R179, U17). -/
def runOutcome : Except Refusal State → Host.Outcome State Fault Refusal
  | .error r => .refused r
  | .ok s =>
    match s.status with
    | .running => .next s
    | .halted f => .fault f

end Sys2Proof.Machine
end

