-- ==== Sys2Proof/Machine/Assembler.lean ====
section
/-! DEFINITION. The assembly syntax of the six instructions (30_encoding.md R84). PRESUMED (log 19): operand order, the
`$n` spelling and five mnemonics are the spec's decision D21; the machine reads only words. -/

namespace Sys2Proof.Machine

/-- A register operand written as `$n` for index n (R84). -/
def numericRegisters : List (String × RegIdx) :=
  [("$0", 0), ("$1", 1), ("$2", 2), ("$3", 3), ("$4", 4), ("$5", 5), ("$6", 6), ("$7", 7)] ++
  [("$8", 8), ("$9", 9), ("$10", 10), ("$11", 11), ("$12", 12), ("$13", 13), ("$14", 14), ("$15", 15)] ++
  [("$16", 16), ("$17", 17), ("$18", 18), ("$19", 19), ("$20", 20), ("$21", 21), ("$22", 22), ("$23", 23)] ++
  [("$24", 24), ("$25", 25), ("$26", 26), ("$27", 27), ("$28", 28), ("$29", 29), ("$30", 30), ("$31", 31)]

/-- Every spelling of a register: its name, or `$n` (R84). -/
def registerSpellings (names : Config.NameTable) : List (String × RegIdx) := names.gpr ++ numericRegisters

/-- The operation of a mnemonic (R84, opcode_table.json). -/
def lookupMnemonic (m : String) : Option AluOp :=
  if m = "add" then some .add
  else if m = "sub" then some .sub
  else if m = "and" then some .and
  else if m = "or" then some .or
  else if m = "slt" then some .slt
  else if m = "sltu" then some .sltu
  else none

/-- The instruction of a line `mnemonic $rd, $rs, $rt`; an assembler puts `shamt = 0` (R84). -/
def assemble (names : Config.NameTable) (l : AsmLine) : Option Instr :=
  match lookupMnemonic l.mnemonic, lookupName (registerSpellings names) l.rd,
      lookupName (registerSpellings names) l.rs, lookupName (registerSpellings names) l.rt with
  | some op, some rd, some rs, some rt => Instr.ofAluOp op rd rs rt 0
  | _, _, _, _ => none

end Sys2Proof.Machine
end

