-- ==== Sys2Proof/Safety.lean ====
section
/-! DEFINITION. What counts as a safe run, in the terms the statements use: the invariant of the machine, what a run of n
instructions is (44_orchestrator.md R183), and which states agree on all that the spec calls observable. -/

namespace Sys2Proof.Machine

open Config (FunctTable)

/-! ## The instruction in flight (R30, R31, R140) -/

/-- Fetch's latch is the word at `pc` (R162). -/
abbrev Fetched (s : State) : Prop := s.mem.loadWord s.pc.toNat = some s.latches.ir

/-- Decode's latches are those of the word in `L.ir` and the registers it names, and `L.op` is the table's (R163). -/
abbrev Decoded (t : FunctTable) (s : State) : Prop :=
  s.latches.withFields = s.latches ∧
  s.latches.opcode = 0 ∧
  s.latches.ctrl = rTypeBundle ∧
  s.latches.a = s.readReg s.latches.rs ∧
  s.latches.b = s.readReg s.latches.rt ∧
  lookupFunct t s.latches.funct = some s.latches.op

/-- Execute's latch is the operation's result (R164). -/
abbrev Executed (s : State) : Prop := s.latches.alu = evalAlu s.latches.op s.latches.a s.latches.b

/-- What the latches hold at each stage of a running machine, the stages before it having run (R31). -/
abbrev InFlight (t : FunctTable) (s : State) : Prop :=
  (s.stage ≠ .fetch → Fetched s) ∧
  (s.stage = .execute ∨ s.stage = .memoryAccess ∨ s.stage = .writeBack → Decoded t s) ∧
  (s.stage = .memoryAccess ∨ s.stage = .writeBack → Executed s)

/-- What a halted machine records is where and why it stands (R201 to R203, R207). -/
abbrev HaltRecord (t : FunctTable) (s : State) : Fault → Prop
  | .unsupportedOpcode opcode stage pc =>
    stage = .decode ∧ s.stage = .decode ∧ pc = s.pc ∧ Fetched s ∧ opcode = opcodeField s.latches.ir ∧ opcode ≠ 0
  | .unsupportedFunct funct stage pc =>
    stage = .decode ∧ s.stage = .decode ∧ pc = s.pc ∧ Fetched s ∧ opcodeField s.latches.ir = 0 ∧
      funct = functField s.latches.ir ∧ lookupFunct t funct = none
  | .outOfBounds address (.stage stage) =>
    stage = .fetch ∧ s.stage = .fetch ∧ address = s.pc.toNat ∧ s.mem.capacity ≤ address + 3
  | .outOfBounds address .hostLoad => s.begun = false ∧ s.mem.capacity ≤ address + 3

/-- The invariant: memory in canonical form with an admitted capacity (R50, R51), no instruction in flight before the first
Execute call (R177), latches that belong to the instruction in flight (R31), a halt record that tells the truth (R207). -/
abbrev MachineInv (t : FunctTable) (s : State) : Prop :=
  s.mem.wf = true ∧
  (s.begun = false → s.stage = .fetch) ∧
  (s.status = .running → InFlight t s) ∧
  (∀ f, s.status = .halted f → HaltRecord t s f)

/-- `pc` is a multiple of 4 (R27). -/
abbrev PcAligned (s : State) : Prop := s.pc.toNat % 4 = 0

/-! ## Runs and agreement -/

/-- "n instructions run to completion" (R183): n Execute-instruction() calls from `stage = Fetch`, none of which faults. -/
abbrev RunsToCompletion (n : Nat) (s t : State) : Prop :=
  s.stage = .fetch ∧ Host.Core.run Sys2Proof.core n s = .next t

/-- The two machines differ at most in their latches, which no host call returns (R31, conflict C10). -/
abbrev AgreeButLatches (s t : State) : Prop :=
  s.regs = t.regs ∧ s.pc = t.pc ∧ s.mem = t.mem ∧ s.stage = t.stage ∧ s.status = t.status ∧ s.begun = t.begun

/-- Two outcomes that a host cannot tell apart: the same fault, the same refusal, or next states that agree but in latches. -/
abbrev SameToHost : Host.Outcome State Fault Refusal → Host.Outcome State Fault Refusal → Prop
  | .next s, .next t => AgreeButLatches s t
  | .fault f, .fault g => f = g
  | .refused r, .refused q => r = q
  | .next _, .fault _ => False
  | .next _, .refused _ => False
  | .fault _, .next _ => False
  | .fault _, .refused _ => False
  | .refused _, .next _ => False
  | .refused _, .fault _ => False

end Sys2Proof.Machine
end

