-- ==== Sys2Proof/Certificates/Slice0/Obligations.lean ====
section
/-! DEFINITION. The statements for the provers, from the spec's numbered rules. -/

open Sys2Proof Sys2Proof.Machine
open Sys2Proof.Config (FunctTable NameTable)

/-! ## The six instructions (42_rtype.md)

Each completes for every operand and state; a destination that is also a source is read before it is written (R147), since the
operands are those of the state before. That the destination is `rd` is the spec's decision D3 (log 3), that `pc + 4` is modulo 2^64 its
decision D11 (log 11). -/

/-- R141: `x[rd] <- (x[rs] + x[rt]) mod 2^64; pc <- pc + 4`. -/
def Obligations.AddCompletesWithWrappedSum : Prop :=
  ∀ (rd rs rt : RegIdx) (shamt : BitVec 5) (s : State), ∃ t, exec (.add rd rs rt shamt) s = .next t ∧
    (t.readReg rd).toNat = ((s.readReg rs).toNat + (s.readReg rt).toNat) % 2 ^ 64 ∧ t.pc = s.pc + 4

/-- R142: `x[rd] <- (x[rs] - x[rt]) mod 2^64; pc <- pc + 4`. -/
def Obligations.SubCompletesWithWrappedDifference : Prop :=
  ∀ (rd rs rt : RegIdx) (shamt : BitVec 5) (s : State), ∃ t, exec (.sub rd rs rt shamt) s = .next t ∧
    ((t.readReg rd).toNat : Int) = ((s.readReg rs).toNat - (s.readReg rt).toNat : Int) % 2 ^ 64 ∧ t.pc = s.pc + 4

/-- R143: `x[rd] <- x[rs] & x[rt]; pc <- pc + 4`, bit by bit (R126). -/
def Obligations.AndCompletesBitByBit : Prop :=
  ∀ (rd rs rt : RegIdx) (shamt : BitVec 5) (s : State), ∃ t, exec (.and rd rs rt shamt) s = .next t ∧
    (∀ k, (t.readReg rd).getLsbD k = ((s.readReg rs).getLsbD k && (s.readReg rt).getLsbD k)) ∧ t.pc = s.pc + 4

/-- R144: `x[rd] <- x[rs] | x[rt]; pc <- pc + 4`, bit by bit (R127). -/
def Obligations.OrCompletesBitByBit : Prop :=
  ∀ (rd rs rt : RegIdx) (shamt : BitVec 5) (s : State), ∃ t, exec (.or rd rs rt shamt) s = .next t ∧
    (∀ k, (t.readReg rd).getLsbD k = ((s.readReg rs).getLsbD k || (s.readReg rt).getLsbD k)) ∧ t.pc = s.pc + 4

/-- R145: 1 when the signed comparison holds and 0 otherwise (the values 1 and 0 are the spec's decision D4, log 4). -/
def Obligations.SltCompletesWithSignedComparison : Prop :=
  ∀ (rd rs rt : RegIdx) (shamt : BitVec 5) (s : State), ∃ t, exec (.slt rd rs rt shamt) s = .next t ∧
    ((s.readReg rs).toInt < (s.readReg rt).toInt → t.readReg rd = 1) ∧
    ((s.readReg rt).toInt ≤ (s.readReg rs).toInt → t.readReg rd = 0) ∧ t.pc = s.pc + 4

/-- R146: 1 when the unsigned comparison holds and 0 otherwise (the values 1 and 0 are the spec's decision D4, log 4). -/
def Obligations.SltuCompletesWithUnsignedComparison : Prop :=
  ∀ (rd rs rt : RegIdx) (shamt : BitVec 5) (s : State), ∃ t, exec (.sltu rd rs rt shamt) s = .next t ∧
    ((s.readReg rs).toNat < (s.readReg rt).toNat → t.readReg rd = 1) ∧
    ((s.readReg rt).toNat ≤ (s.readReg rs).toNat → t.readReg rd = 0) ∧ t.pc = s.pc + 4

/-- The frame of all six: every register but `rd`, every byte of memory and the capacity, run status, `begun`, and the two
latches no part of the instruction after Fetch writes (R140, R31). There are no flags (R44). `pc` and the other fourteen latches
may change, and the stage is Fetch after it. -/
def Obligations.RTypeFrame : Prop :=
  ∀ (i : Instr) (s t : State), exec i s = .next t →
    (∀ r, r ≠ i.rd → t.readReg r = s.readReg r) ∧
    (∀ a, t.mem.byteAt a = s.mem.byteAt a) ∧ t.mem.capacity = s.mem.capacity ∧
    t.status = s.status ∧ t.begun = s.begun ∧ t.stage = .fetch ∧
    t.latches.ir = s.latches.ir ∧ t.latches.mem = s.latches.mem

/-- R149, R81: two instructions that differ at most in `shamt` do the same to all a host can see (that `shamt` is not checked
is the spec's decision D18, log 16). -/
def Obligations.ShamtNeverMatters : Prop :=
  ∀ (i j : Instr) (s : State), i.aluOp = j.aluOp → i.rd = j.rd → i.rs = j.rs → i.rt = j.rt →
    SameToHost (exec i s) (exec j s)

/-! ## Registers, memory, immediates (10_state.md, 20_memory.md, 30_encoding.md) -/

/-- R21: every register, register 0 too, reads what was last written to it; a write leaves the others, `pc` and memory. -/
def Obligations.RegisterZeroIsOrdinary : Prop :=
  ∀ (s : State) (v : Word),
    (s.writeReg 0 v).readReg 0 = v ∧
    ∀ i : RegIdx, (s.writeReg i v).readReg i = v ∧
      (∀ j, j ≠ i → (s.writeReg i v).readReg j = s.readReg j) ∧
      (s.writeReg i v).pc = s.pc ∧ (s.writeReg i v).mem = s.mem

/-- R54, R52, R162: a word read in bounds has the byte at `a` in bits 31:24 and so on; out of bounds it gives no word. Fetch, the
stage that reads words, in bounds changes only `L.ir`, to the word at `pc`; out of bounds it raises OutOfBounds at `pc` and halts
(the halting is D6, log 6; the recorded stage is D7, log 7). -/
def Obligations.LoadWordIsBigEndianInBounds : Prop :=
  (∀ (m : Memory) (a : Nat), a + 3 < m.capacity → ∃ w, m.loadWord a = some w ∧
    w.extractLsb' 24 8 = m.byteAt a ∧ w.extractLsb' 16 8 = m.byteAt (a + 1) ∧
    w.extractLsb' 8 8 = m.byteAt (a + 2) ∧ w.extractLsb' 0 8 = m.byteAt (a + 3)) ∧
  (∀ (m : Memory) (a : Nat), m.capacity ≤ a + 3 → m.loadWord a = none) ∧
  (∀ s : State, s.pc.toNat + 3 < s.mem.capacity → ∃ w, s.mem.loadWord s.pc.toNat = some w ∧
    fetchWork s = .done (s.setLatches { s.latches with ir := w })) ∧
  (∀ s : State, s.mem.capacity ≤ s.pc.toNat + 3 →
    fetchWork s = raiseFault (.outOfBounds s.pc.toNat (.stage .fetch)) s)

/-- R56, R52, R59: a word write in bounds writes its four bytes big-endian and no other; out of bounds it writes none (the
check before any byte is the spec's decision D10, log 10). -/
def Obligations.StoreWordWritesItsFourBytes : Prop :=
  ∀ (m : Memory) (a : Nat) (w : InstrWord), m.wf = true →
    (a + 3 < m.capacity → ∃ m', m.storeWord a w = some m' ∧ m'.capacity = m.capacity ∧
      (∀ k, k < 4 → m'.byteAt (a + k) = w.extractLsb' (24 - 8 * k) 8) ∧
      (∀ c, c < a ∨ a + 4 ≤ c → m'.byteAt c = m.byteAt c)) ∧
    (m.capacity ≤ a + 3 → m.storeWord a w = none)

/-- S1: a word read after a word write at the same address gives the word back. -/
def Obligations.LoadAfterStoreReturnsTheWord : Prop :=
  ∀ (m m' : Memory) (a : Nat) (w : InstrWord), m.wf = true → m.storeWord a w = some m' → m'.loadWord a = some w

/-- R58 (bounds of a byte write: D13, log 13): a byte sequence in bounds is all written and nothing else is; one that runs
out of bounds stops at the first address out of bounds, with the bytes before it written (log 24). An empty
sequence changes nothing and is no fault, whatever its base (log 24), and the capacity never changes (R51). -/
def Obligations.BulkLoadOfBytes : Prop :=
  ∀ (m : Memory) (base : Nat) (bs : List Byte), m.wf = true →
    (∀ k (h : k < bs.length), base + k < m.capacity → (m.loadBytes base bs).1.byteAt (base + k) = bs[k]) ∧
    (∀ c, c < base ∨ base + bs.length ≤ c → (m.loadBytes base bs).1.byteAt c = m.byteAt c) ∧
    (base + bs.length ≤ m.capacity → (m.loadBytes base bs).2 = none) ∧
    (bs ≠ [] → m.capacity < base + bs.length → (m.loadBytes base bs).2 = some (max base m.capacity)) ∧
    m.loadBytes base [] = (m, none) ∧
    (m.loadBytes base bs).1.capacity = m.capacity

/-- R58: a word sequence in bounds reads back word by word, and nothing else is written; one that runs out of bounds stops at
the address of the first word out of bounds, with the words before it written and nothing else (log 24; that the word out of
bounds writes no byte is D10, log 10). An empty sequence changes nothing and is no fault, whatever its base (log 24), and the
capacity never changes (R51). -/
def Obligations.BulkLoadOfWords : Prop :=
  ∀ (m : Memory) (base : Nat) (ws : List InstrWord), m.wf = true →
    (base + 4 * ws.length ≤ m.capacity →
      (m.loadWords base ws).2 = none ∧
      (∀ k (h : k < ws.length), (m.loadWords base ws).1.loadWord (base + 4 * k) = some ws[k]) ∧
      (∀ c, c < base ∨ base + 4 * ws.length ≤ c → (m.loadWords base ws).1.byteAt c = m.byteAt c)) ∧
    (ws ≠ [] → m.capacity < base + 4 * ws.length → ∃ n, n < ws.length ∧
      (m.loadWords base ws).2 = some (base + 4 * n) ∧ m.capacity ≤ base + 4 * n + 3 ∧
      (∀ k (h : k < ws.length), k < n →
        base + 4 * k + 3 < m.capacity ∧ (m.loadWords base ws).1.loadWord (base + 4 * k) = some ws[k]) ∧
      (∀ c, c < base ∨ base + 4 * n ≤ c → (m.loadWords base ws).1.byteAt c = m.byteAt c)) ∧
    m.loadWords base [] = (m, none) ∧
    (m.loadWords base ws).1.capacity = m.capacity

/-- Memory is its capacity and its bytes: two well-formed memories that agree in both are the same data. -/
def Obligations.CanonicalMemoryIsItsBytes : Prop :=
  ∀ m n : Memory, m.wf = true → n.wf = true → m.capacity = n.capacity → (∀ a, m.byteAt a = n.byteAt a) → m = n

/-- R75: zero-extended when bit 15 is 0, else all ones above, which is `imm - 0x10000`; the low 16 bits are the immediate. -/
def Obligations.ImmediateIsSignExtended : Prop :=
  ∀ imm : BitVec 16,
    (imm.getLsbD 15 = false → (signExtendImm imm).toNat = imm.toNat) ∧
    (imm.getLsbD 15 = true → (∀ k, 16 ≤ k → k < 64 → (signExtendImm imm).getLsbD k = true) ∧
      (signExtendImm imm).toInt = (imm.toNat : Int) - 0x10000) ∧
    (signExtendImm imm).extractLsb' 0 16 = imm

/-- R71 (conflict C5): the word is its six fields side by side, and the immediate is `rd`, `shamt` and `funct` together. -/
def Obligations.WordIsItsFields : Prop :=
  ∀ w : InstrWord,
    w.toNat = (opcodeField w).toNat * 2 ^ 26 + (rsField w).toNat * 2 ^ 21 + (rtField w).toNat * 2 ^ 16 +
      (rdField w).toNat * 2 ^ 11 + (shamtField w).toNat * 2 ^ 6 + (functField w).toNat ∧
    (immField w).toNat = (rdField w).toNat * 2 ^ 11 + (shamtField w).toNat * 2 ^ 6 + (functField w).toNat

/-! ## ALU, control and the funct table (40_control.md, 41_alu.md) -/

/-- R122: addition modulo 2^64, selected by funct 0x20; R123: subtraction modulo 2^64 (its funct 0x22 is the spec's decision
D2, log 2, and not said here). -/
def Obligations.AluAddAndSubWrap : Prop :=
  lookupFunct functTable 0b100000 = some .add ∧
  ∀ a b : Word,
    (evalAlu .add a b).toNat = (a.toNat + b.toNat) % 2 ^ 64 ∧
    ((evalAlu .sub a b).toNat : Int) = (a.toNat - b.toNat : Int) % 2 ^ 64

/-- R126, R127: and, or, bit by bit (their functs are the spec's decision D2, log 2, and not said here). -/
def Obligations.AluAndOrAreBitwise : Prop :=
  ∀ (a b : Word) (k : Nat),
    (evalAlu .and a b).getLsbD k = (a.getLsbD k && b.getLsbD k) ∧
    (evalAlu .or a b).getLsbD k = (a.getLsbD k || b.getLsbD k)

/-- R128, R129: shift-left-by-16 of the second operand alone, not of the first alone; no supported opcode's bundle is a
`Direct` class, and no funct selects either. -/
def Obligations.ShiftAndNotIgnoreAnOperand : Prop :=
  (∀ a b : Word,
    (evalAlu .shl16 a b).toNat = b.toNat * 2 ^ 16 % 2 ^ 64 ∧
    (∀ k, k < 64 → (evalAlu .not a b).getLsbD k = !a.getLsbD k)) ∧
  (∀ (opcode : BitVec 6) (ctrl : ControlSignals), controlFor opcode = some ctrl → ctrl.aluOp = .useFunct) ∧
  (∀ (f : BitVec 6) (op : AluOp), lookupFunct functTable f = some op → op ≠ .shl16 ∧ op ≠ .not)

/-- R124, R125: signed and unsigned set-less-than (the values 1 and 0 are the spec's decision D4, log 4). -/
def Obligations.AluSetLessThan : Prop :=
  ∀ a b : Word,
    evalAlu .slt a b = (if a.toInt < b.toInt then 1 else 0) ∧
    evalAlu .sltu a b = (if a.toNat < b.toNat then 1 else 0)

/-- R78, R103: the default table has exactly its six rows, so no funct selects shift-left-by-16 or not (log 2: five of the
rows are the spec's decision D2). -/
def Obligations.DefaultFunctTableRows : Prop :=
  ∀ (f : BitVec 6) (op : AluOp), lookupFunct functTable f = some op ↔
    (f = 0b100000 ∧ op = .add) ∨ (f = 0b100010 ∧ op = .sub) ∨ (f = 0b100100 ∧ op = .and) ∨
    (f = 0b100101 ∧ op = .or) ∨ (f = 0b101010 ∧ op = .slt) ∨ (f = 0b101011 ∧ op = .sltu)

/-- R101: an explicit bundle for opcode 0; for every other opcode none, and Decode raises the unsupported-opcode fault (the
recorded stage and `pc` are D7, log 7; the halted status is D6, log 6). -/
def Obligations.ControlGeneratorNeverDefaults : Prop :=
  ∀ opcode : BitVec 6,
    (opcode = 0 → controlFor opcode = some rTypeBundle) ∧
    (opcode ≠ 0 → controlFor opcode = none ∧
      ∀ (t : FunctTable) (s : State), opcodeField s.latches.ir = opcode →
        ∃ s', decodeWork t s = .raised (.unsupportedOpcode opcode .decode s.pc) s' ∧
          s'.status = .halted (.unsupportedOpcode opcode .decode s.pc))

/-- R100, R43: after a Decode of opcode 0, one that completes and one that then faults on its funct, the ten selectors are those
of opcode 0, whatever they were before; `regDst = Rd` is the spec's decision D3 (log 3). Of a faulting Decode it reads the halted
machine's `L.ctrl` (V4; log 6). -/
def Obligations.DecodeWritesTheWholeBundle : Prop :=
  ∀ (t : FunctTable) (s s' : State),
    decodeWork t s = .done s' ∨
      (∃ funct stage pc, decodeWork t s = .raised (.unsupportedFunct funct stage pc) s') →
    s'.latches.ctrl.aluOp = .useFunct ∧ s'.latches.ctrl.aluSrc = .register ∧
    s'.latches.ctrl.branch = .disabled ∧ s'.latches.ctrl.jump = .disabled ∧
    s'.latches.ctrl.memRead = .disabled ∧ s'.latches.ctrl.wbSrc = .aluResult ∧
    s'.latches.ctrl.memWrite = .disabled ∧ s'.latches.ctrl.memWriteData = .secondRegister ∧
    s'.latches.ctrl.regDst = .rd ∧ s'.latches.ctrl.regWrite = .enabled

/-- R104: through the table under use-funct, directly otherwise; without a row, Decode raises the unsupported-funct fault (the
recorded stage and `pc` are D7, log 7; the halted status is D6, log 6). -/
def Obligations.ResolverFollowsTheTable : Prop :=
  (∀ (t : FunctTable) (funct : BitVec 6), resolveAluOp t .useFunct funct = lookupFunct t funct) ∧
  (∀ (t : FunctTable) (funct : BitVec 6) (op : AluOp), resolveAluOp t (.direct op) funct = some op) ∧
  (∀ (t : FunctTable) (s : State), opcodeField s.latches.ir = 0 → lookupFunct t (functField s.latches.ir) = none →
    ∃ s', decodeWork t s = .raised (.unsupportedFunct (functField s.latches.ir) .decode s.pc) s' ∧
      s'.status = .halted (.unsupportedFunct (functField s.latches.ir) .decode s.pc))

/-! ## The stages (44_orchestrator.md) -/

/-- R30: the successor function and the initial value. -/
def Obligations.StageSuccessorIsCyclic : Prop :=
  Stage.next .fetch = .decode ∧ Stage.next .decode = .execute ∧ Stage.next .execute = .memoryAccess ∧
  Stage.next .memoryAccess = .writeBack ∧ Stage.next .writeBack = .fetch ∧
  ∀ capacity, (State.construct capacity).stage = .fetch

/-- R163: what Decode latches when it completes, each field of `L.ir`, the sign-extended immediate, the control signals, the
two registers read and the resolved operation, with the other latches and all of the machine but the latches untouched. -/
def Obligations.DecodeLatchesEveryField : Prop :=
  ∀ (t : FunctTable) (s s' : State), decodeWork t s = .done s' →
    s'.latches.ir = s.latches.ir ∧
    s'.latches.opcode = s.latches.ir.extractLsb' 26 6 ∧ s'.latches.rs = s.latches.ir.extractLsb' 21 5 ∧
    s'.latches.rt = s.latches.ir.extractLsb' 16 5 ∧ s'.latches.rd = s.latches.ir.extractLsb' 11 5 ∧
    s'.latches.shamt = s.latches.ir.extractLsb' 6 5 ∧ s'.latches.funct = s.latches.ir.extractLsb' 0 6 ∧
    s'.latches.imm = s.latches.ir.extractLsb' 0 16 ∧ s'.latches.simm = signExtendImm s'.latches.imm ∧
    controlFor s'.latches.opcode = some s'.latches.ctrl ∧
    s'.latches.a = s.readReg s'.latches.rs ∧ s'.latches.b = s.readReg s'.latches.rt ∧
    resolveAluOp t s'.latches.ctrl.aluOp s'.latches.funct = some s'.latches.op ∧
    s'.latches.alu = s.latches.alu ∧ s'.latches.mem = s.latches.mem ∧ s'.latches.wb = s.latches.wb ∧
    s' = s.setLatches s'.latches

/-- R164, R121: Execute completes and writes only `L.alu`, the operation on `L.a` and the operand `aluSrc` selects. -/
def Obligations.ExecuteInvokesTheAlu : Prop :=
  ∀ s : State, ∃ s', executeWork s = .done s' ∧
    (s.latches.ctrl.aluSrc = .register → s'.latches.alu = evalAlu s.latches.op s.latches.a s.latches.b) ∧
    (s.latches.ctrl.aluSrc = .immediate → s'.latches.alu = evalAlu s.latches.op s.latches.a s.latches.simm) ∧
    s' = s.setLatches { s.latches with alu := s'.latches.alu }

/-- R165: MemoryAccess is a no-op with loads and stores disabled, and refused otherwise (D25, log 22). -/
def Obligations.MemoryAccessIsANoOp : Prop :=
  ∀ s : State,
    (s.latches.ctrl.memRead = .disabled → s.latches.ctrl.memWrite = .disabled → memoryAccessWork s = .done s) ∧
    (s.latches.ctrl.memRead = .enabled ∨ s.latches.ctrl.memWrite = .enabled →
      memoryAccessWork s = .refused .memoryAccessEnabled)

/-- R166, R38, R41, R42: WriteBack completes; it selects the value and, if enabled, the register; `pc` advances by 4 either way;
memory, stage, run status, `begun` and the other latches stay. That `pc + 4` is modulo 2^64 is the spec's decision D11 (R26; log 11),
and `begun` is the model's own field (log 9). -/
def Obligations.WriteBackCommitsAndAdvances : Prop :=
  ∀ s : State, ∃ s', writeBackWork s = .done s' ∧
    (s.latches.ctrl.wbSrc = .aluResult → s'.latches.wb = s.latches.alu) ∧
    (s.latches.ctrl.wbSrc = .memoryRead → s'.latches.wb = s.latches.mem) ∧
    (s.latches.ctrl.regWrite = .enabled → s.latches.ctrl.regDst = .rd →
      s'.readReg s.latches.rd = s'.latches.wb ∧ ∀ r, r ≠ s.latches.rd → s'.readReg r = s.readReg r) ∧
    (s.latches.ctrl.regWrite = .enabled → s.latches.ctrl.regDst = .rt →
      s'.readReg s.latches.rt = s'.latches.wb ∧ ∀ r, r ≠ s.latches.rt → s'.readReg r = s.readReg r) ∧
    (s.latches.ctrl.regWrite = .disabled → s'.regs = s.regs) ∧
    s'.pc = s.pc + 4 ∧ s'.mem = s.mem ∧ s'.stage = s.stage ∧ s'.status = s.status ∧ s'.begun = s.begun ∧
    s'.latches = { s.latches with wb := s'.latches.wb }

/-- R167, R168: on a running machine one Execute-stage() call is the work of the current stage, then `stage` to its successor; a
fault or a refusal ends it there, a fault with `stage` not advanced (D6, log 6). R170: from Fetch, one Execute-instruction() call is
five stage calls and leaves Fetch again; in mid-cycle it is the stages left of the instruction in flight (R171: three from Execute)
and begins no other. The mark that a call has been made, `markBegun`, is the model's own field (log 9). -/
def Obligations.ExecuteInstructionRunsACycleOrFinishesOne : Prop :=
  ∀ (t : FunctTable) (s : State),
    (∀ u, stageWork t .fetch u = fetchWork u ∧ stageWork t .decode u = decodeWork t u ∧
      stageWork t .execute u = executeWork u ∧ stageWork t .memoryAccess u = memoryAccessWork u ∧
      stageWork t .writeBack u = writeBackWork u) ∧
    (∀ u, s.status = .running → stageWork t s.stage s.markBegun = .done u →
      executeStage t s = .done (u.setStage s.stage.next)) ∧
    (∀ f u, s.status = .running → stageWork t s.stage s.markBegun = .raised f u →
      executeStage t s = .raised f u ∧ u.stage = s.stage) ∧
    (∀ r, s.status = .running → stageWork t s.stage s.markBegun = .refused r → executeStage t s = .refused r) ∧
    (∀ s', executeStage t s = .done s' → s'.stage = s.stage.next) ∧
    (s.stage = .fetch → executeInstruction t s = executeStages t 5 s) ∧
    (s.stage = .decode → executeInstruction t s = executeStages t 4 s) ∧
    (s.stage = .execute → executeInstruction t s = executeStages t 3 s) ∧
    (s.stage = .memoryAccess → executeInstruction t s = executeStages t 2 s) ∧
    (s.stage = .writeBack → executeInstruction t s = executeStages t 1 s) ∧
    (∀ s', executeInstruction t s = .done s' → s'.stage = .fetch)

/-- R171, S5: after one to four stages of an instruction, Execute-instruction() leaves exactly what it would have left from
Fetch, whether it completes or faults. -/
def Obligations.MidCycleResumeLosesNothing : Prop :=
  ∀ (t : FunctTable) (n : Nat) (s s' : State), s.stage = .fetch → 1 ≤ n → n ≤ 4 →
    executeStages t n s = .done s' → executeInstruction t s' = executeInstruction t s

/-- R174, R180, R226: Execute-stage() at any stage but WriteBack changes no value Get-register can answer, and no stage
changes memory. Where the call faults, it says this of the halted machine, which rests on R207 (log 28, log 6). -/
def Obligations.GetRegisterSeesOnlyWriteBack : Prop :=
  ∀ (t : FunctTable) (names : NameTable) (key : RegKey) (s : State),
    (s.stage ≠ .writeBack →
      getRegister names key (hostCall t .executeStage s) = getRegister names key s) ∧
    (hostCall t .executeStage s).mem = s.mem

/-- R66, R207: an Execute call never changes memory, and when it raises a fault, registers and `pc` are those from before it,
`stage` is Fetch or Decode, and the run status is halted by that fault. -/
def Obligations.FatalErrorsArePrecise : Prop :=
  ∀ (t : FunctTable) (c : HostCall) (s : State), c = .executeInstruction ∨ c = .executeStage →
    (hostCall t c s).mem = s.mem ∧
    ∀ f s', hostWork t c s = .raised f s' →
      s'.regs = s.regs ∧ s'.pc = s.pc ∧ (s'.stage = .fetch ∨ s'.stage = .decode) ∧ s'.status = .halted f

/-! ## Encoding -/

/-- Decoding the bytes of an instruction gives it back, every operand at every value, and the bytes after it (R83). -/
def Obligations.DecodeOfEncodeIsTheInstruction : Prop :=
  ∀ (i : Instr) (rest : List Byte), i.wellFormed = true ∧ decode (encodeBytes i ++ rest) = .ok (i, rest)

/-- Whatever bytes decode to an instruction are that instruction's bytes: each has one encoding (R71, R83). -/
def Obligations.DecodedBytesAreTheEncoding : Prop :=
  ∀ (bs rest : List Byte) (i : Instr), decode bs = .ok (i, rest) → bs = encodeBytes i ++ rest

/-- R82, R79, R80: every word is one of the six instructions or is rejected under one of the two names, opcode first. -/
def Obligations.EveryWordDecodesOrIsRejected : Prop :=
  ∀ w : InstrWord,
    (opcodeField w ≠ 0 → decodeWord w = .error (.unsupportedOpcode (opcodeField w))) ∧
    (opcodeField w = 0 → lookupFunct functTable (functField w) = none →
      decodeWord w = .error (.unsupportedFunct (functField w))) ∧
    (opcodeField w = 0 → ∀ op, lookupFunct functTable (functField w) = some op →
      ∃ i, decodeWord w = .ok i ∧ i.aluOp = op ∧ encode i = w)

/-- Words of the spec's worked examples, one for each instruction (R141 to R149; the functs but 0x20 are D2, log 2). -/
def Obligations.WorkedExampleWordsDecode : Prop :=
  decode [0x01, 0x29, 0x48, 0x20] = .ok (.add 9 9 9 0, []) ∧
  decode [0x01, 0x09, 0x50, 0x22] = .ok (.sub 10 8 9 0, []) ∧
  decode [0x01, 0x09, 0x50, 0x24] = .ok (.and 10 8 9 0, []) ∧
  decode [0x01, 0x09, 0x50, 0x25] = .ok (.or 10 8 9 0, []) ∧
  decode [0x01, 0x09, 0x50, 0x2A] = .ok (.slt 10 8 9 0, []) ∧
  decode [0x01, 0x09, 0x50, 0x2B] = .ok (.sltu 10 8 9 0, []) ∧
  decode [0x01, 0x29, 0x4F, 0xE0] = .ok (.add 9 9 9 31, [])

/-! ## The step -/

/-- When the four bytes at `pc` are in bounds and decode to an instruction, a step of a running machine at Fetch is that
instruction's meaning on the machine after Fetch: the word in `L.ir`, Decode the next stage, an Execute call made. -/
def Obligations.StepRunsTheDecodedInstruction : Prop :=
  ∀ (s : State) (i : Instr), s.status = .running → s.stage = .fetch → s.pc.toNat + 3 < s.mem.capacity →
    decode [s.mem.byteAt s.pc.toNat, s.mem.byteAt (s.pc.toNat + 1), s.mem.byteAt (s.pc.toNat + 2),
      s.mem.byteAt (s.pc.toNat + 3)] = .ok (i, []) →
    step s = exec i ((s.markBegun).afterFetch (encode i))

/-- The step is Execute-instruction() as the stage machine runs it, stage by stage, in every state: the same next state with
every latch, the same fault, the same refusal (R140, R170). -/
def Obligations.StepIsExecuteInstruction : Prop :=
  ∀ s : State, step s = (executeInstruction functTable s).outcome

/-- A word placed at `pc` is what the next step runs. -/
def Obligations.PlacedWordRunsNext : Prop :=
  ∀ (s : State) (i : Instr), s.mem.wf = true → s.pc.toNat + 3 < s.mem.capacity →
    step (s.withFetchWord 32 (encode i).toNat) =
      exec i ((s.withFetchWord 32 (encode i).toNat).markBegun.afterFetch (encode i))

/-- R79: a word at `pc` whose opcode is not 0 is fatal, with its opcode (the recorded stage and `pc` are D7, log 7). -/
def Obligations.NonzeroOpcodeIsFatal : Prop :=
  ∀ (s : State) (w : InstrWord), s.status = .running → s.stage = .fetch → s.mem.loadWord s.pc.toNat = some w →
    opcodeField w ≠ 0 → step s = .fault (.unsupportedOpcode (opcodeField w) .decode s.pc)

/-- R208: which of the three fatal errors an instruction raises, the first in order, and that it completes when it raises
none (what each records is D7, log 7). -/
def Obligations.FirstFatalErrorWins : Prop :=
  ∀ s : State, s.status = .running → s.stage = .fetch →
    (s.mem.capacity ≤ s.pc.toNat + 3 → step s = .fault (.outOfBounds s.pc.toNat (.stage .fetch))) ∧
    (∀ w, s.mem.loadWord s.pc.toNat = some w →
      (opcodeField w ≠ 0 → step s = .fault (.unsupportedOpcode (opcodeField w) .decode s.pc)) ∧
      (opcodeField w = 0 → lookupFunct functTable (functField w) = none →
        step s = .fault (.unsupportedFunct (functField w) .decode s.pc)) ∧
      (opcodeField w = 0 → lookupFunct functTable (functField w) ≠ none → ∃ t, step s = .next t))

/-- The machine right after construction runs the all-zero word at address 0, which is illegal (R80, R183): the
zero funct has no row in the default table (log 2), the recorded stage and `pc` are D7 (log 7), and the machine is the reset
machine, whose capacity is log 1. -/
def Obligations.FirstStepWithNothingLoadedIsFatal : Prop :=
  step State.reset = .fault (.unsupportedFunct 0 .decode 0)

/-! ## Invariants and whole-machine rules -/

/-- A constructed machine of any admitted capacity meets the invariant, the reset machine among them. -/
def Obligations.ConstructionMeetsInv : Prop :=
  (∀ (t : FunctTable) (capacity : Nat), Config.capacityOk capacity = true → MachineInv t (State.construct capacity)) ∧
  MachineInv functTable State.reset

/-- Every step keeps the invariant. -/
def Obligations.StepKeepsInv : Prop :=
  ∀ s t : State, MachineInv functTable s → step s = .next t → MachineInv functTable t

/-- Every host call keeps the invariant, under every funct table, whether it completes, faults or is refused. -/
def Obligations.HostCallKeepsInv : Prop :=
  ∀ (t : FunctTable) (c : HostCall) (s : State), MachineInv t s → MachineInv t (hostCall t c s)

/-- R47, R20, R221: what construction leaves (the latches' values are D17, log 15). -/
def Obligations.ConstructionZeroesTheMachine : Prop :=
  ∀ capacity : Nat,
    (∀ i, (State.construct capacity).readReg i = 0) ∧ (State.construct capacity).pc = 0 ∧
    (∀ a, (State.construct capacity).mem.byteAt a = 0) ∧ (State.construct capacity).mem.capacity = capacity ∧
    (State.construct capacity).stage = .fetch ∧ (State.construct capacity).status = .running ∧
    (State.construct capacity).latches = Latches.initial

/-- R27: a `pc` that is a multiple of 4 stays one. -/
def Obligations.StepKeepsPcAligned : Prop :=
  ∀ s t : State, PcAligned s → step s = .next t → PcAligned t

/-- R165: no state that meets the invariant has a load or a store enabled at MemoryAccess, so a running machine is never
refused a step. -/
def Obligations.RunningMachineIsNeverRefused : Prop :=
  ∀ (s : State) (r : Refusal), MachineInv functTable s → s.status = .running → step s ≠ .refused r

/-- R46, R173, R183: a halted machine is changed by no sequence of host calls, whose outcome as a run is the fault, and it refuses
both Execute calls (D6, D23; log 6, log 20). -/
def Obligations.HaltedMachineStaysHalted : Prop :=
  ∀ (t : FunctTable) (names : NameTable) (cs : List HostCall) (s : State) (f : Fault), s.status = .halted f →
    hostCalls t cs s = .ok s ∧ runOutcome (hostCalls t cs s) = .fault f ∧
    hostAnswer t names .executeInstruction s = .refused .machineHalted ∧
    hostAnswer t names .executeStage s = .refused .machineHalted ∧
    step s = .refused .machineHalted

/-- R26, R28, R183: a run of n instructions to completion advances `pc` by exactly 4n, without wrap, changes no memory and
ends at Fetch. -/
def Obligations.RunAdvancesPcByFourEach : Prop :=
  ∀ (n : Nat) (s t : State), s.mem.wf = true → RunsToCompletion n s t →
    t.pc.toNat = s.pc.toNat + 4 * n ∧ t.mem = s.mem ∧ t.stage = .fetch

/-- R222: no latch value carries into any result. Two machines at Fetch that agree in all but latches agree in all but latches
after any number of steps, or stop alike. -/
def Obligations.LatchesCarryNothingIntoARun : Prop :=
  ∀ (n : Nat) (s t : State), AgreeButLatches s t → s.stage = .fetch →
    SameToHost (Host.Core.run Sys2Proof.core n s) (Host.Core.run Sys2Proof.core n t)

/-- R103: what completes under the strict table, which holds only the attested row, completes alike under the default. -/
def Obligations.StrictTableRunsAreDefaultRuns : Prop :=
  ∀ s t : State, executeInstruction strictFunctTable s = .done t → executeInstruction functTable s = .done t

/-! ## The host interface -/

/-- R177, R178, R179: host writes are refused once an Execute call has been made, Execute calls on a running machine make it so
for good, and a run with such a write in it is refused, whatever calls come after (D9, U17; log 9). -/
def Obligations.HostWritesEndWhenExecutionBegins : Prop :=
  ∀ (t : FunctTable) (names : NameTable) (c : HostCall) (s : State),
    (s.begun = true → (hostCall t c s).begun = true) ∧
    (s.status = .running → s.stage = .fetch → c = .executeInstruction ∨ c = .executeStage →
      (hostCall t c s).begun = true) ∧
    (s.begun = true → s.status = .running → c ≠ .executeInstruction → c ≠ .executeStage →
      (∀ key, c ≠ .getRegister key) → hostCall t c s = s ∧ hostAnswer t names c s = .refused .hostWriteAfterBegin ∧
      ∀ (s0 : State) (before after : List HostCall), hostCalls t before s0 = .ok s →
        runOutcome (hostCalls t (before ++ c :: after) s0) = .refused .hostWriteAfterBegin)

/-- R183, R205, R179: a run whose outcome is a fault, or that is marked refused, keeps that outcome whatever calls come after; one
whose outcome is a state goes on from it, and its next call settles the outcome as that call completes, faults or is refused
(D24, log 21; refused: U17, log 9). -/
def Obligations.RunOutcomeIsSettled : Prop :=
  ∀ (t : FunctTable) (cs : List HostCall) (s : State),
    (∀ f, runOutcome (hostCalls t cs s) = .fault f →
      ∀ ds, runOutcome (hostCalls t (cs ++ ds) s) = .fault f) ∧
    (∀ r, runOutcome (hostCalls t cs s) = .refused r →
      ∀ ds, runOutcome (hostCalls t (cs ++ ds) s) = .refused r) ∧
    (∀ u, runOutcome (hostCalls t cs s) = .next u →
      ∀ c, runOutcome (hostCalls t (cs ++ [c]) s) = (hostWork t c u).outcome)

/-- R178 (D8, log 8): before the first Execute call a preset sets the one register or `pc` to the value, and nothing else. -/
def Obligations.PresetsSetOneRegister : Prop :=
  ∀ (t : FunctTable) (s : State) (i : RegIdx) (v : Word), s.status = .running → s.begun = false →
    hostCall t (.presetReg i v) s = s.writeReg i v ∧
    (hostCall t (.presetReg i v) s).readReg i = v ∧
    hostCall t (.presetPc v) s = s.setPc v ∧
    (hostCall t (.presetPc v) s).pc = v

/-- R177, R203: before the first Execute call a bulk load in bounds leaves the loaded memory and nothing else changed; one
whose first access is out of bounds raises OutOfBounds at its address, as a host load, halts the machine and leaves memory; one
that goes out of bounds at any of its accesses raises it at that address and halts, with the memory the load leaves (BulkLoadOfWords
and BulkLoadOfBytes say which; log 24). The byte bound is D13 (log 13), what is recorded D7 (log 7), that a word out of bounds
writes no byte D10 (log 10); the memory of the halted machine is read as R14 leaves it (log 6). -/
def Obligations.BulkLoadOutOfBoundsHalts : Prop :=
  ∀ (t : FunctTable) (names : NameTable) (s : State) (base : Word) (ws : List InstrWord) (bs : List Byte),
    s.status = .running → s.begun = false →
    (base.toNat + 4 * ws.length ≤ s.mem.capacity →
      hostCall t (.loadWords base ws) s = s.setMem (s.mem.loadWords base.toNat ws).1) ∧
    (base.toNat + bs.length ≤ s.mem.capacity →
      hostCall t (.loadBytes base bs) s = s.setMem (s.mem.loadBytes base.toNat bs).1) ∧
    (∀ w, s.mem.capacity ≤ base.toNat + 3 →
      (hostCall t (.loadWords base (w :: ws)) s).status = .halted (.outOfBounds base.toNat .hostLoad) ∧
      (hostCall t (.loadWords base (w :: ws)) s).mem = s.mem ∧
      hostAnswer t names (.loadWords base (w :: ws)) s = .fault (.outOfBounds base.toNat .hostLoad)) ∧
    (∀ b, s.mem.capacity ≤ base.toNat →
      (hostCall t (.loadBytes base (b :: bs)) s).status = .halted (.outOfBounds base.toNat .hostLoad) ∧
      (hostCall t (.loadBytes base (b :: bs)) s).mem = s.mem ∧
      hostAnswer t names (.loadBytes base (b :: bs)) s = .fault (.outOfBounds base.toNat .hostLoad)) ∧
    (∀ a, (s.mem.loadWords base.toNat ws).2 = some a →
      (hostCall t (.loadWords base ws) s).status = .halted (.outOfBounds a .hostLoad) ∧
      (hostCall t (.loadWords base ws) s).mem = (s.mem.loadWords base.toNat ws).1 ∧
      hostAnswer t names (.loadWords base ws) s = .fault (.outOfBounds a .hostLoad)) ∧
    (∀ a, (s.mem.loadBytes base.toNat bs).2 = some a →
      (hostCall t (.loadBytes base bs) s).status = .halted (.outOfBounds a .hostLoad) ∧
      (hostCall t (.loadBytes base bs) s).mem = (s.mem.loadBytes base.toNat bs).1 ∧
      hostAnswer t names (.loadBytes base bs) s = .fault (.outOfBounds a .hostLoad))

/-- R181, R182, R204: Get-register by index, by a register's name, by the PC's name; absent for any other key; no state
changes (names are D12, log 12). It holds of every state, and what it says of a halted machine is log 28. -/
def Obligations.GetRegisterAnswersByNameAndIndex : Prop :=
  ∀ (t : FunctTable) (names : NameTable) (s : State), names.wellFormed = true →
    (∀ i : RegIdx, getRegister names (.index i.toNat) s = some (s.readReg i)) ∧
    (∀ n, 32 ≤ n → getRegister names (.index n) s = none) ∧
    (∀ name i, (name, i) ∈ names.gpr → getRegister names (.name name) s = some (s.readReg i)) ∧
    getRegister names (.name names.pc) s = some s.pc ∧
    (∀ name, name ≠ names.pc → name ∉ names.gpr.map Prod.fst → getRegister names (.name name) s = none) ∧
    (∀ key, hostCall t (.getRegister key) s = s ∧
      hostAnswer t names (.getRegister key) s = .value (getRegister names key s))

/-- R84 (D21, log 19): the assembler reads exactly the well-formed lines, and puts `shamt = 0`. The six mnemonics are the six
operations, a name spells its register, `$n` spells register n, decimal without leading zeros, where it is no name, and nothing
else spells one. -/
def Obligations.AssemblerReadsExactlyWellFormedLines : Prop :=
  ∀ (names : NameTable) (l : AsmLine),
    (∀ m op, lookupMnemonic m = some op ↔
      (m = "add" ∧ op = .add) ∨ (m = "sub" ∧ op = .sub) ∨ (m = "and" ∧ op = .and) ∨
      (m = "or" ∧ op = .or) ∨ (m = "slt" ∧ op = .slt) ∨ (m = "sltu" ∧ op = .sltu)) ∧
    (∀ name i, names.wellFormed = true → (name, i) ∈ names.gpr →
      lookupName (registerSpellings names) name = some i) ∧
    (∀ n, n < 32 → "$" ++ toString n ∉ names.gpr.map Prod.fst →
      lookupName (registerSpellings names) ("$" ++ toString n) = some (BitVec.ofNat 5 n)) ∧
    (∀ operand, operand ∉ names.gpr.map Prod.fst → (∀ n, n < 32 → operand ≠ "$" ++ toString n) →
      lookupName (registerSpellings names) operand = none) ∧
    (assemble names l).isSome = l.wellFormed (registerSpellings names) ∧
    ∀ i, assemble names l = some i →
      i.shamt = 0 ∧ lookupMnemonic l.mnemonic = some i.aluOp ∧
      lookupName (registerSpellings names) l.rd = some i.rd ∧
      lookupName (registerSpellings names) l.rs = some i.rs ∧
      lookupName (registerSpellings names) l.rt = some i.rt
end

