-- ==== Sys2Proof/Laws/Decode.lean ====
section
/-! SUPPORT. Laws of the instruction word: byte order, the fields of an assembled word, the funct table, and what the decoder
answers. -/

namespace Sys2Proof

open Config (FunctTable)

/-! ## Byte order -/

theorem getLsbD_wordOfBytes (b0 b1 b2 b3 : Byte) (i : Nat) :
    (wordOfBytes b0 b1 b2 b3).getLsbD i =
      if i < 8 then b3.getLsbD i else if i < 16 then b2.getLsbD (i - 8)
      else if i < 24 then b1.getLsbD (i - 16) else b0.getLsbD (i - 24) := by
  refine (BitVec.getLsbD_append (x := b0 ++ b1 ++ b2) (y := b3) (i := i)).trans ?_
  simp only [BitVec.getLsbD_append]
  grind

/-- A word is the word of its bytes. -/
@[simp] theorem wordOfBytes_bytesOfWord (w : InstrWord) :
    wordOfBytes (w.extractLsb' 24 8) (w.extractLsb' 16 8) (w.extractLsb' 8 8) (w.extractLsb' 0 8) = w := by
  apply BitVec.eq_of_getLsbD_eq
  intro i hi
  simp only [getLsbD_wordOfBytes, BitVec.getLsbD_extractLsb']
  grind

/-- The bytes of a word of four bytes are those bytes. -/
@[simp] theorem bytesOfWord_wordOfBytes (b0 b1 b2 b3 : Byte) :
    bytesOfWord (wordOfBytes b0 b1 b2 b3) = [b0, b1, b2, b3] := by
  simp only [bytesOfWord, List.cons.injEq, and_true]
  refine ⟨?_, ?_, ?_, ?_⟩ <;>
  · apply BitVec.eq_of_getLsbD_eq
    intro i hi
    simp only [BitVec.getLsbD_extractLsb', getLsbD_wordOfBytes]
    grind

@[simp] theorem length_bytesOfWord (w : InstrWord) : (bytesOfWord w).length = 4 := rfl

/-! ## The fields of an assembled word (R71, R83) -/

section
variable (rs rt rd : RegIdx) (shamt : BitVec 5) (funct : BitVec 6)

@[simp] theorem opcodeField_rTypeWord : opcodeField (rTypeWord rs rt rd shamt funct) = 0 := by
  ext i hi
  simp [opcodeField, rTypeWord]
  grind

@[simp] theorem rsField_rTypeWord : rsField (rTypeWord rs rt rd shamt funct) = rs := by
  ext i hi
  simp [rsField, rTypeWord]
  grind

@[simp] theorem rtField_rTypeWord : rtField (rTypeWord rs rt rd shamt funct) = rt := by
  ext i hi
  simp [rtField, rTypeWord]
  grind

@[simp] theorem rdField_rTypeWord : rdField (rTypeWord rs rt rd shamt funct) = rd := by
  ext i hi
  simp [rdField, rTypeWord]
  grind

@[simp] theorem shamtField_rTypeWord : shamtField (rTypeWord rs rt rd shamt funct) = shamt := by
  ext i hi
  simp [shamtField, rTypeWord]
  grind

@[simp] theorem functField_rTypeWord : functField (rTypeWord rs rt rd shamt funct) = funct := by
  ext i hi
  simp [functField, rTypeWord]
  grind

end

/-- The immediate of any word is its `rd`, `shamt` and `funct` fields (R71, conflict C5). -/
theorem immField_eq (w : InstrWord) :
    immField w = Machine.rTypeImm (rdField w) (shamtField w) (functField w) := by
  apply BitVec.eq_of_getLsbD_eq
  intro i hi
  refine Eq.trans ?_ (BitVec.getLsbD_append (x := rdField w ++ shamtField w) (y := functField w) (i := i)).symm
  simp only [BitVec.getLsbD_append, immField, rdField, shamtField, functField, BitVec.getLsbD_extractLsb']
  grind

/-- A word of opcode 0 is assembled from its fields (R83). -/
theorem rTypeWord_fields {w : InstrWord} (h : opcodeField w = 0) :
    rTypeWord (rsField w) (rtField w) (rdField w) (shamtField w) (functField w) = w := by
  apply BitVec.eq_of_getLsbD_eq
  intro i hi
  have hop : ∀ k, k < 6 → w.getLsbD (26 + k) = false := by
    intro k hk
    have := congrArg (fun v => v.getLsbD k) h
    simpa [opcodeField, hk] using this
  have htop : 26 ≤ i → w.getLsbD i = false := by
    intro hi26
    simpa [show 26 + (i - 26) = i by omega] using hop (i - 26) (by omega)
  simp only [rTypeWord, rsField, rtField, rdField, shamtField, functField, BitVec.getLsbD_or, BitVec.getLsbD_shiftLeft,
    BitVec.getLsbD_setWidth, BitVec.getLsbD_extractLsb']
  grind

/-- The bits of the sign-extended immediate: its own below 16, bit 15 above (R75). -/
theorem getLsbD_signExtendImm (imm : BitVec 16) (i : Nat) :
    (Machine.signExtendImm imm).getLsbD i = if i < 16 then imm.getLsbD i else (decide (i < 64) && imm.getLsbD 15) := by
  unfold Machine.signExtendImm
  by_cases h : imm.getLsbD 15 = true
  · rw [if_pos h]
    refine (BitVec.getLsbD_append (x := BitVec.allOnes 48) (y := imm) (i := i)).trans ?_
    by_cases hi : i < 16
    · simp [hi]
    · have : (i - 16 < 48) ↔ (i < 64) := by omega
      simp only [BitVec.getLsbD_allOnes, if_neg hi, h, Bool.and_true, this]
  · rw [if_neg h]
    refine (BitVec.getLsbD_append (x := (0 : BitVec 48)) (y := imm) (i := i)).trans ?_
    by_cases hi : i < 16 <;> simp_all

/-! ## The funct table -/

/-- The default table row by row (R78). -/
theorem lookupFunct_functTable (f : BitVec 6) :
    lookupFunct functTable f =
      if f = 0x20 then some .add else if f = 0x22 then some .sub else if f = 0x24 then some .and
      else if f = 0x25 then some .or else if f = 0x2A then some .slt else if f = 0x2B then some .sltu else none := by
  simp only [functTable, lookupFunct, eq_comm (b := f)]

/-- What the default table answers is never an operation without an instruction (R78). -/
theorem ofAluOp_of_lookup {f : BitVec 6} {op : AluOp} (h : lookupFunct functTable f = some op)
    (rd rs rt : RegIdx) (shamt : BitVec 5) : ∃ i, Instr.ofAluOp op rd rs rt shamt = some i := by
  rw [lookupFunct_functTable] at h
  cases op <;> first | exact ⟨_, rfl⟩ | (exfalso; revert h; split_ifs <;> simp)

/-! ## What the decoder answers -/

/-- A decoded instruction's operation, and its fields. -/
theorem ofAluOp_spec {op : AluOp} {rd rs rt : RegIdx} {shamt : BitVec 5} {i : Instr}
    (h : Instr.ofAluOp op rd rs rt shamt = some i) :
    i.aluOp = op ∧ i.rd = rd ∧ i.rs = rs ∧ i.rt = rt ∧ i.shamt = shamt := by
  cases op <;> simp only [Instr.ofAluOp, Option.some.injEq, reduceCtorEq] at h <;> subst h <;>
    exact ⟨rfl, rfl, rfl, rfl, rfl⟩

/-- A word of a nonzero opcode is rejected by that name (R79). -/
theorem decodeWord_opcode {w : InstrWord} (h : opcodeField w ≠ 0) :
    decodeWord w = .error (.unsupportedOpcode (opcodeField w)) := by
  rw [decodeWord, if_neg h]

/-- A word of opcode 0 without a row is rejected by that name (R80). -/
theorem decodeWord_funct {w : InstrWord} (h : opcodeField w = 0)
    (hf : lookupFunct functTable (functField w) = none) :
    decodeWord w = .error (.unsupportedFunct (functField w)) := by
  simp [decodeWord, h, hf]

/-- A word of opcode 0 with a row decodes to the instruction of its fields (R77 to R81). -/
theorem decodeWord_row {w : InstrWord} {op : AluOp} (h : opcodeField w = 0)
    (hf : lookupFunct functTable (functField w) = some op) :
    ∃ i, decodeWord w = .ok i ∧ i.aluOp = op ∧ i.rd = rdField w ∧ i.rs = rsField w ∧ i.rt = rtField w ∧
      i.shamt = shamtField w := by
  obtain ⟨i, hi⟩ := ofAluOp_of_lookup hf (rdField w) (rsField w) (rtField w) (shamtField w)
  exact ⟨i, by simp [decodeWord, h, hf, hi], ofAluOp_spec hi⟩

/-- When the decoder accepts a word, opcode is 0, funct has a row, and the instruction's fields are the word's. -/
theorem decodeWord_ok {w : InstrWord} {i : Instr} (h : decodeWord w = .ok i) :
    opcodeField w = 0 ∧ lookupFunct functTable (functField w) = some i.aluOp ∧ i.rd = rdField w ∧
      i.rs = rsField w ∧ i.rt = rtField w ∧ i.shamt = shamtField w := by
  by_cases ho : opcodeField w = 0
  · cases hf : lookupFunct functTable (functField w) with
    | none => rw [decodeWord_funct ho hf] at h; cases h
    | some op =>
      obtain ⟨j, hj, hop, hrest⟩ := decodeWord_row ho hf
      rw [hj] at h
      cases h
      exact ⟨ho, by rw [hop], hrest⟩
  · rw [decodeWord_opcode ho] at h; cases h

end Sys2Proof
end

