-- ==== Sys2Proof/Laws/Memory.lean ====
section
/-! SUPPORT. Laws of memory: a read after a write, every other byte untouched, the canonical form kept by every operation. -/

namespace Sys2Proof.Machine

/-! ## Cells -/

theorem readCell_consCell_same (a : Nat) (b : Byte) {above : List Host.Cell}
    (h : readCell a above = Memory.unlisted) : readCell a (consCell a b above) = b := by
  unfold consCell
  split
  · simp_all
  · simp [readCell]

theorem readCell_consCell_ne {a c : Nat} (b : Byte) (above : List Host.Cell) (h : c ≠ a) :
    readCell c (consCell a b above) = readCell c above := by
  unfold consCell
  split
  · rfl
  · simp [readCell, h]

/-- Below the cells of a canonical list nothing is listed. -/
theorem readCell_below {low high : Nat} {cells : List Host.Cell} (h : cellsOk low high cells = true) {a : Nat}
    (ha : a < low) : readCell a cells = Memory.unlisted := by
  induction cells generalizing low with
  | nil => rfl
  | cons cell rest ih =>
    obtain ⟨c, b⟩ := cell
    simp only [cellsOk, Bool.and_eq_true, decide_eq_true_eq] at h
    obtain ⟨⟨⟨hlow, hhigh⟩, hb⟩, hrest⟩ := h
    rw [readCell, if_neg (by omega)]
    exact ih hrest (by omega)

/-- At or above the bound nothing is listed. -/
theorem readCell_above {low high : Nat} {cells : List Host.Cell} (h : cellsOk low high cells = true) {a : Nat}
    (ha : high ≤ a) : readCell a cells = Memory.unlisted := by
  induction cells generalizing low with
  | nil => rfl
  | cons cell rest ih =>
    obtain ⟨c, b⟩ := cell
    simp only [cellsOk, Bool.and_eq_true, decide_eq_true_eq] at h
    obtain ⟨⟨⟨hlow, hhigh⟩, hb⟩, hrest⟩ := h
    rw [readCell, if_neg (by omega)]
    exact ih hrest

theorem readCell_writeCell_ne {a c : Nat} (b : Byte) (cells : List Host.Cell) (h : c ≠ a) :
    readCell c (writeCell a b cells) = readCell c cells := by
  induction cells with
  | nil => exact readCell_consCell_ne b [] h
  | cons cell rest ih =>
    obtain ⟨d, e⟩ := cell
    unfold writeCell
    split_ifs with hlt heq
    · exact readCell_consCell_ne b _ h
    · subst heq
      rw [readCell_consCell_ne b rest h, readCell, if_neg h]
    · simp only [readCell, ih]

theorem readCell_writeCell_same {low high : Nat} {cells : List Host.Cell} (h : cellsOk low high cells = true)
    (a : Nat) (b : Byte) : readCell a (writeCell a b cells) = b := by
  induction cells generalizing low with
  | nil => exact readCell_consCell_same a b rfl
  | cons cell rest ih =>
    obtain ⟨d, e⟩ := cell
    have hall := h
    simp only [cellsOk, Bool.and_eq_true, decide_eq_true_eq] at h
    obtain ⟨⟨⟨hlow, hhigh⟩, he⟩, hrest⟩ := h
    unfold writeCell
    split_ifs with hlt heq
    · refine readCell_consCell_same a b ?_
      refine readCell_below (low := d) (high := high) ?_ hlt
      simp [cellsOk, hhigh, he, hrest]
    · exact readCell_consCell_same a b (readCell_below hrest (by omega))
    · rw [readCell, if_neg heq]
      exact ih hrest

theorem cellsOk_mono {low low' high : Nat} {cells : List Host.Cell} (h : cellsOk low high cells = true)
    (hl : low' ≤ low) : cellsOk low' high cells = true := by
  cases cells with
  | nil => rfl
  | cons cell rest =>
    obtain ⟨c, b⟩ := cell
    simp only [cellsOk, Bool.and_eq_true, decide_eq_true_eq] at h ⊢
    obtain ⟨⟨⟨hlow, hhigh⟩, hb⟩, hrest⟩ := h
    exact ⟨⟨⟨by omega, hhigh⟩, hb⟩, hrest⟩

theorem cellsOk_consCell {low high a : Nat} (b : Byte) {above : List Host.Cell}
    (h : cellsOk (a + 1) high above = true) (hl : low ≤ a) (hh : a < high) :
    cellsOk low high (consCell a b above) = true := by
  unfold consCell
  split
  · exact cellsOk_mono h (by omega)
  · simp_all [cellsOk]

theorem cellsOk_writeCell {low high a : Nat} {cells : List Host.Cell} (h : cellsOk low high cells = true)
    (b : Byte) (hl : low ≤ a) (hh : a < high) : cellsOk low high (writeCell a b cells) = true := by
  induction cells generalizing low with
  | nil => exact cellsOk_consCell b rfl hl hh
  | cons cell rest ih =>
    obtain ⟨d, e⟩ := cell
    simp only [cellsOk, Bool.and_eq_true, decide_eq_true_eq] at h
    obtain ⟨⟨⟨hlow, hhigh⟩, he⟩, hrest⟩ := h
    unfold writeCell
    split_ifs with hlt heq
    · refine cellsOk_consCell b ?_ hl hh
      simp only [cellsOk, Bool.and_eq_true, decide_eq_true_eq]
      exact ⟨⟨⟨by omega, hhigh⟩, he⟩, hrest⟩
    · exact cellsOk_consCell b (heq ▸ hrest) hl hh
    · simp only [cellsOk, Bool.and_eq_true, decide_eq_true_eq]
      exact ⟨⟨⟨hlow, hhigh⟩, he⟩, ih hrest (by omega)⟩

/-! ## One byte -/

@[simp] theorem Memory.setByte_capacity (m : Memory) (a : Nat) (b : Byte) : (m.setByte a b).capacity = m.capacity := rfl

theorem Memory.byteAt_setByte_ne (m : Memory) {a c : Nat} (b : Byte) (h : c ≠ a) :
    (m.setByte a b).byteAt c = m.byteAt c := readCell_writeCell_ne b m.cells h

theorem Memory.wf_cells {m : Memory} (h : m.wf = true) : cellsOk 0 m.capacity m.cells = true := by
  simp only [Memory.wf, Bool.and_eq_true] at h
  exact h.2

theorem Memory.wf_capacity {m : Memory} (h : m.wf = true) : 4 ≤ m.capacity ∧ m.capacity < 2 ^ 64 - 4 := by
  simp only [Memory.wf, Config.capacityOk, Bool.and_eq_true, decide_eq_true_eq] at h
  exact h.1

theorem Memory.byteAt_setByte_same {m : Memory} (h : m.wf = true) (a : Nat) (b : Byte) :
    (m.setByte a b).byteAt a = b := readCell_writeCell_same (Memory.wf_cells h) a b

theorem Memory.setByte_wf {m : Memory} (h : m.wf = true) {a : Nat} (b : Byte) (ha : a < m.capacity) :
    (m.setByte a b).wf = true := by
  have hc := h
  simp only [Memory.wf, Bool.and_eq_true] at hc ⊢
  exact ⟨hc.1, cellsOk_writeCell hc.2 b (Nat.zero_le a) ha⟩

/-! ## Bytes in a row -/

@[simp] theorem Memory.setBytes_capacity (m : Memory) (a : Nat) (bs : List Byte) :
    (m.setBytes a bs).capacity = m.capacity := by
  induction bs generalizing m a with
  | nil => rfl
  | cons b bs ih => simp [Memory.setBytes, ih]

theorem Memory.setBytes_wf {m : Memory} (h : m.wf = true) {a : Nat} (bs : List Byte)
    (ha : a + bs.length ≤ m.capacity) : (m.setBytes a bs).wf = true := by
  induction bs generalizing m a with
  | nil => exact h
  | cons b bs ih =>
    simp only [List.length_cons] at ha
    exact ih (Memory.setByte_wf h b (by omega)) (by simp; omega)

theorem Memory.byteAt_setBytes_outside (m : Memory) (a : Nat) (bs : List Byte) {c : Nat}
    (h : c < a ∨ a + bs.length ≤ c) : (m.setBytes a bs).byteAt c = m.byteAt c := by
  induction bs generalizing m a with
  | nil => rfl
  | cons b bs ih =>
    simp only [List.length_cons] at h
    rw [Memory.setBytes, ih (m.setByte a b) (a + 1) (by omega), Memory.byteAt_setByte_ne m b (by omega)]

theorem Memory.byteAt_setBytes_inside {m : Memory} (h : m.wf = true) {a : Nat} (bs : List Byte)
    (ha : a + bs.length ≤ m.capacity) (k : Nat) (hk : k < bs.length) :
    (m.setBytes a bs).byteAt (a + k) = bs[k] := by
  induction bs generalizing m a k with
  | nil => simp at hk
  | cons b bs ih =>
    simp only [List.length_cons] at ha hk
    have hwf := Memory.setByte_wf h b (a := a) (by omega)
    cases k with
    | zero =>
      rw [Memory.setBytes, Memory.byteAt_setBytes_outside _ _ _ (by omega)]
      exact Memory.byteAt_setByte_same h a b
    | succ k =>
      have := ih hwf (a := a + 1) (by simp; omega) k (by omega)
      simpa [Memory.setBytes, Nat.add_assoc, Nat.add_comm 1 k] using this

/-! ## Words and single bytes, with their bounds -/

/-- Everything a word read can answer (R54). -/
theorem Memory.loadWord_eq_some {m : Memory} {a : Nat} {w : InstrWord} :
    m.loadWord a = some w ↔ a + 3 < m.capacity ∧
      w = wordOfBytes (m.byteAt a) (m.byteAt (a + 1)) (m.byteAt (a + 2)) (m.byteAt (a + 3)) := by
  simp only [Memory.loadWord, Memory.wordInBounds, decide_eq_true_eq]
  split <;> simp_all [eq_comm]

theorem Memory.loadWord_eq_none {m : Memory} {a : Nat} : m.loadWord a = none ↔ m.capacity ≤ a + 3 := by
  simp only [Memory.loadWord, Memory.wordInBounds, decide_eq_true_eq]
  split <;> simp_all

/-- Everything a word write can answer (R56). -/
theorem Memory.storeWord_eq_some {m m' : Memory} {a : Nat} {w : InstrWord} :
    m.storeWord a w = some m' ↔ a + 3 < m.capacity ∧ m' = m.setBytes a (bytesOfWord w) := by
  simp only [Memory.storeWord, Memory.wordInBounds, decide_eq_true_eq]
  split <;> simp_all [eq_comm]

theorem Memory.storeWord_eq_none {m : Memory} {a : Nat} {w : InstrWord} :
    m.storeWord a w = none ↔ m.capacity ≤ a + 3 := by
  simp only [Memory.storeWord, Memory.wordInBounds, decide_eq_true_eq]
  split <;> simp_all

/-- Everything a byte write can answer (R58). -/
theorem Memory.storeByte_eq_some {m m' : Memory} {a : Nat} {b : Byte} :
    m.storeByte a b = some m' ↔ a < m.capacity ∧ m' = m.setByte a b := by
  simp only [Memory.storeByte, Memory.byteInBounds, decide_eq_true_eq]
  split <;> simp_all [eq_comm]

theorem Memory.storeByte_eq_none {m : Memory} {a : Nat} {b : Byte} :
    m.storeByte a b = none ↔ m.capacity ≤ a := by
  simp only [Memory.storeByte, Memory.byteInBounds, decide_eq_true_eq]
  split <;> simp_all

theorem Memory.storeWord_wf {m m' : Memory} {a : Nat} {w : InstrWord} (h : m.wf = true)
    (hs : m.storeWord a w = some m') : m'.wf = true := by
  obtain ⟨ha, rfl⟩ := Memory.storeWord_eq_some.mp hs
  exact Memory.setBytes_wf h _ (by simp; omega)

theorem Memory.storeByte_wf {m m' : Memory} {a : Nat} {b : Byte} (h : m.wf = true)
    (hs : m.storeByte a b = some m') : m'.wf = true := by
  obtain ⟨ha, rfl⟩ := Memory.storeByte_eq_some.mp hs
  exact Memory.setByte_wf h b ha

theorem Memory.storeWord_capacity {m m' : Memory} {a : Nat} {w : InstrWord}
    (hs : m.storeWord a w = some m') : m'.capacity = m.capacity := by
  obtain ⟨-, rfl⟩ := Memory.storeWord_eq_some.mp hs
  simp

theorem Memory.storeByte_capacity {m m' : Memory} {a : Nat} {b : Byte}
    (hs : m.storeByte a b = some m') : m'.capacity = m.capacity := by
  obtain ⟨-, rfl⟩ := Memory.storeByte_eq_some.mp hs
  simp

/-! ## Bulk loads -/

/-- A load of words keeps the canonical form, whether or not it faults. -/
theorem Memory.loadWords_wf {m : Memory} (h : m.wf = true) (a : Nat) (ws : List InstrWord) :
    (m.loadWords a ws).1.wf = true := by
  induction ws generalizing m a with
  | nil => exact h
  | cons w ws ih =>
    rw [Memory.loadWords]
    split
    · exact h
    · rename_i m' hs
      exact ih (Memory.storeWord_wf h hs) (a + 4)

theorem Memory.loadBytes_wf {m : Memory} (h : m.wf = true) (a : Nat) (bs : List Byte) :
    (m.loadBytes a bs).1.wf = true := by
  induction bs generalizing m a with
  | nil => exact h
  | cons b bs ih =>
    rw [Memory.loadBytes]
    split
    · exact h
    · rename_i m' hs
      exact ih (Memory.storeByte_wf h hs) (a + 1)

@[simp] theorem Memory.loadWords_capacity (m : Memory) (a : Nat) (ws : List InstrWord) :
    (m.loadWords a ws).1.capacity = m.capacity := by
  induction ws generalizing m a with
  | nil => rfl
  | cons w ws ih =>
    rw [Memory.loadWords]
    split
    · rfl
    · rename_i m' hs
      rw [ih, Memory.storeWord_capacity hs]

@[simp] theorem Memory.loadBytes_capacity (m : Memory) (a : Nat) (bs : List Byte) :
    (m.loadBytes a bs).1.capacity = m.capacity := by
  induction bs generalizing m a with
  | nil => rfl
  | cons b bs ih =>
    rw [Memory.loadBytes]
    split
    · rfl
    · rename_i m' hs
      rw [ih, Memory.storeByte_capacity hs]

/-- A load of words in bounds does not fault. -/
theorem Memory.loadWords_inBounds {m : Memory} {a : Nat} {ws : List InstrWord}
    (h : a + 4 * ws.length ≤ m.capacity) : (m.loadWords a ws).2 = none := by
  induction ws generalizing m a with
  | nil => rfl
  | cons w ws ih =>
    simp only [List.length_cons] at h
    have hs : m.storeWord a w = some _ := Memory.storeWord_eq_some.mpr ⟨by omega, rfl⟩
    rw [Memory.loadWords, hs]
    exact ih (by simp; omega)

/-- A load of bytes in bounds does not fault. -/
theorem Memory.loadBytes_inBounds {m : Memory} {a : Nat} {bs : List Byte}
    (h : a + bs.length ≤ m.capacity) : (m.loadBytes a bs).2 = none := by
  induction bs generalizing m a with
  | nil => rfl
  | cons b bs ih =>
    simp only [List.length_cons] at h
    have hs : m.storeByte a b = some _ := Memory.storeByte_eq_some.mpr ⟨by omega, rfl⟩
    rw [Memory.loadBytes, hs]
    exact ih (by simp; omega)

/-- The address a faulting load names is out of bounds for a word. -/
theorem Memory.loadWords_fault {m : Memory} {a c : Nat} {ws : List InstrWord}
    (h : (m.loadWords a ws).2 = some c) : m.capacity ≤ c + 3 := by
  induction ws generalizing m a with
  | nil => simp [Memory.loadWords] at h
  | cons w ws ih =>
    rw [Memory.loadWords] at h
    split at h
    · rename_i hs
      cases h
      exact Memory.storeWord_eq_none.mp hs
    · rename_i m' hs
      have := ih h
      rwa [Memory.storeWord_capacity hs] at this

theorem Memory.loadBytes_fault {m : Memory} {a c : Nat} {bs : List Byte}
    (h : (m.loadBytes a bs).2 = some c) : m.capacity ≤ c := by
  induction bs generalizing m a with
  | nil => simp [Memory.loadBytes] at h
  | cons b bs ih =>
    rw [Memory.loadBytes] at h
    split at h
    · rename_i hs
      cases h
      exact Memory.storeByte_eq_none.mp hs
    · rename_i m' hs
      have := ih h
      rwa [Memory.storeByte_capacity hs] at this

end Sys2Proof.Machine
end

