-- ==== Sys2Proof/Laws/State.lean ====
section
/-! SUPPORT. One lemma for each field and each update of `State`, so that no proof unfolds a record update, and the register
file's own laws. -/

namespace Sys2Proof.Machine

/-! ## setPc -/

@[simp] theorem State.setPc_regs (s : State) (v : Word) : (s.setPc v).regs = s.regs := rfl
@[simp] theorem State.setPc_pc (s : State) (v : Word) : (s.setPc v).pc = v := rfl
@[simp] theorem State.setPc_mem (s : State) (v : Word) : (s.setPc v).mem = s.mem := rfl
@[simp] theorem State.setPc_stage (s : State) (v : Word) : (s.setPc v).stage = s.stage := rfl
@[simp] theorem State.setPc_latches (s : State) (v : Word) : (s.setPc v).latches = s.latches := rfl
@[simp] theorem State.setPc_status (s : State) (v : Word) : (s.setPc v).status = s.status := rfl
@[simp] theorem State.setPc_begun (s : State) (v : Word) : (s.setPc v).begun = s.begun := rfl
@[simp] theorem State.setPc_readReg (s : State) (v : Word) (i : RegIdx) : (s.setPc v).readReg i = s.readReg i := rfl

/-! ## setMem -/

@[simp] theorem State.setMem_regs (s : State) (m : Memory) : (s.setMem m).regs = s.regs := rfl
@[simp] theorem State.setMem_pc (s : State) (m : Memory) : (s.setMem m).pc = s.pc := rfl
@[simp] theorem State.setMem_mem (s : State) (m : Memory) : (s.setMem m).mem = m := rfl
@[simp] theorem State.setMem_stage (s : State) (m : Memory) : (s.setMem m).stage = s.stage := rfl
@[simp] theorem State.setMem_latches (s : State) (m : Memory) : (s.setMem m).latches = s.latches := rfl
@[simp] theorem State.setMem_status (s : State) (m : Memory) : (s.setMem m).status = s.status := rfl
@[simp] theorem State.setMem_begun (s : State) (m : Memory) : (s.setMem m).begun = s.begun := rfl
@[simp] theorem State.setMem_readReg (s : State) (m : Memory) (i : RegIdx) : (s.setMem m).readReg i = s.readReg i := rfl

/-! ## setStage -/

@[simp] theorem State.setStage_regs (s : State) (st : Stage) : (s.setStage st).regs = s.regs := rfl
@[simp] theorem State.setStage_pc (s : State) (st : Stage) : (s.setStage st).pc = s.pc := rfl
@[simp] theorem State.setStage_mem (s : State) (st : Stage) : (s.setStage st).mem = s.mem := rfl
@[simp] theorem State.setStage_stage (s : State) (st : Stage) : (s.setStage st).stage = st := rfl
@[simp] theorem State.setStage_latches (s : State) (st : Stage) : (s.setStage st).latches = s.latches := rfl
@[simp] theorem State.setStage_status (s : State) (st : Stage) : (s.setStage st).status = s.status := rfl
@[simp] theorem State.setStage_begun (s : State) (st : Stage) : (s.setStage st).begun = s.begun := rfl
@[simp] theorem State.setStage_readReg (s : State) (st : Stage) (i : RegIdx) : (s.setStage st).readReg i = s.readReg i := rfl

/-! ## setLatches -/

@[simp] theorem State.setLatches_regs (s : State) (l : Latches) : (s.setLatches l).regs = s.regs := rfl
@[simp] theorem State.setLatches_pc (s : State) (l : Latches) : (s.setLatches l).pc = s.pc := rfl
@[simp] theorem State.setLatches_mem (s : State) (l : Latches) : (s.setLatches l).mem = s.mem := rfl
@[simp] theorem State.setLatches_stage (s : State) (l : Latches) : (s.setLatches l).stage = s.stage := rfl
@[simp] theorem State.setLatches_latches (s : State) (l : Latches) : (s.setLatches l).latches = l := rfl
@[simp] theorem State.setLatches_status (s : State) (l : Latches) : (s.setLatches l).status = s.status := rfl
@[simp] theorem State.setLatches_begun (s : State) (l : Latches) : (s.setLatches l).begun = s.begun := rfl
@[simp] theorem State.setLatches_readReg (s : State) (l : Latches) (i : RegIdx) : (s.setLatches l).readReg i = s.readReg i := rfl

/-! ## setStatus -/

@[simp] theorem State.setStatus_regs (s : State) (r : RunStatus) : (s.setStatus r).regs = s.regs := rfl
@[simp] theorem State.setStatus_pc (s : State) (r : RunStatus) : (s.setStatus r).pc = s.pc := rfl
@[simp] theorem State.setStatus_mem (s : State) (r : RunStatus) : (s.setStatus r).mem = s.mem := rfl
@[simp] theorem State.setStatus_stage (s : State) (r : RunStatus) : (s.setStatus r).stage = s.stage := rfl
@[simp] theorem State.setStatus_latches (s : State) (r : RunStatus) : (s.setStatus r).latches = s.latches := rfl
@[simp] theorem State.setStatus_status (s : State) (r : RunStatus) : (s.setStatus r).status = r := rfl
@[simp] theorem State.setStatus_begun (s : State) (r : RunStatus) : (s.setStatus r).begun = s.begun := rfl
@[simp] theorem State.setStatus_readReg (s : State) (r : RunStatus) (i : RegIdx) : (s.setStatus r).readReg i = s.readReg i := rfl

/-! ## markBegun -/

@[simp] theorem State.markBegun_regs (s : State) : (s.markBegun).regs = s.regs := rfl
@[simp] theorem State.markBegun_pc (s : State) : (s.markBegun).pc = s.pc := rfl
@[simp] theorem State.markBegun_mem (s : State) : (s.markBegun).mem = s.mem := rfl
@[simp] theorem State.markBegun_stage (s : State) : (s.markBegun).stage = s.stage := rfl
@[simp] theorem State.markBegun_latches (s : State) : (s.markBegun).latches = s.latches := rfl
@[simp] theorem State.markBegun_status (s : State) : (s.markBegun).status = s.status := rfl
@[simp] theorem State.markBegun_begun (s : State) : (s.markBegun).begun = true := rfl
@[simp] theorem State.markBegun_readReg (s : State) (i : RegIdx) : (s.markBegun).readReg i = s.readReg i := rfl

/-! ## writeReg and advancePc -/

@[simp] theorem State.writeReg_pc (s : State) (i : RegIdx) (v : Word) : (s.writeReg i v).pc = s.pc := rfl
@[simp] theorem State.writeReg_mem (s : State) (i : RegIdx) (v : Word) : (s.writeReg i v).mem = s.mem := rfl
@[simp] theorem State.writeReg_stage (s : State) (i : RegIdx) (v : Word) : (s.writeReg i v).stage = s.stage := rfl
@[simp] theorem State.writeReg_latches (s : State) (i : RegIdx) (v : Word) : (s.writeReg i v).latches = s.latches := rfl
@[simp] theorem State.writeReg_status (s : State) (i : RegIdx) (v : Word) : (s.writeReg i v).status = s.status := rfl
@[simp] theorem State.writeReg_begun (s : State) (i : RegIdx) (v : Word) : (s.writeReg i v).begun = s.begun := rfl

/-- A register reads what was last written to it, register 0 too (R21). -/
@[simp] theorem State.readReg_writeReg_same (s : State) (i : RegIdx) (v : Word) : (s.writeReg i v).readReg i = v := by
  simp [State.readReg, State.writeReg]

/-- A write leaves every other register alone. -/
@[simp] theorem State.readReg_writeReg_ne (s : State) {i j : RegIdx} (v : Word) (h : j ≠ i) :
    (s.writeReg i v).readReg j = s.readReg j := by
  have hn : i.toNat ≠ j.toNat := fun e => h (BitVec.eq_of_toNat_eq e.symm)
  simp only [State.readReg, State.writeReg]
  exact Vector.getElem_set_ne i.isLt j.isLt hn

theorem State.readReg_writeReg (s : State) (i j : RegIdx) (v : Word) :
    (s.writeReg i v).readReg j = if j = i then v else s.readReg j := by
  by_cases h : j = i
  · simp [h]
  · simp [h]

/-- Two register files that read alike are equal. -/
theorem regs_ext {s t : State} (h : ∀ i, s.readReg i = t.readReg i) : s.regs = t.regs := by
  apply Vector.ext
  intro i hi
  have := h (BitVec.ofNat 5 i)
  simpa [State.readReg, Nat.mod_eq_of_lt hi] using this

/-- A register read depends on the register file alone. -/
theorem readReg_congr {s t : State} (h : s.regs = t.regs) (i : RegIdx) : s.readReg i = t.readReg i := by
  simp only [State.readReg, h]

@[simp] theorem State.advancePc_pc (s : State) : s.advancePc.pc = s.pc + 4 := rfl
@[simp] theorem State.advancePc_regs (s : State) : s.advancePc.regs = s.regs := rfl
@[simp] theorem State.advancePc_mem (s : State) : s.advancePc.mem = s.mem := rfl
@[simp] theorem State.advancePc_stage (s : State) : s.advancePc.stage = s.stage := rfl
@[simp] theorem State.advancePc_latches (s : State) : s.advancePc.latches = s.latches := rfl
@[simp] theorem State.advancePc_status (s : State) : s.advancePc.status = s.status := rfl
@[simp] theorem State.advancePc_begun (s : State) : s.advancePc.begun = s.begun := rfl
@[simp] theorem State.advancePc_readReg (s : State) (i : RegIdx) : s.advancePc.readReg i = s.readReg i := rfl

/-! ## afterFetch -/

@[simp] theorem State.afterFetch_regs (s : State) (w : InstrWord) : (s.afterFetch w).regs = s.regs := rfl
@[simp] theorem State.afterFetch_pc (s : State) (w : InstrWord) : (s.afterFetch w).pc = s.pc := rfl
@[simp] theorem State.afterFetch_mem (s : State) (w : InstrWord) : (s.afterFetch w).mem = s.mem := rfl
@[simp] theorem State.afterFetch_stage (s : State) (w : InstrWord) : (s.afterFetch w).stage = .decode := rfl
@[simp] theorem State.afterFetch_latches (s : State) (w : InstrWord) : (s.afterFetch w).latches = { s.latches with ir := w } := rfl
@[simp] theorem State.afterFetch_status (s : State) (w : InstrWord) : (s.afterFetch w).status = s.status := rfl
@[simp] theorem State.afterFetch_begun (s : State) (w : InstrWord) : (s.afterFetch w).begun = s.begun := rfl
@[simp] theorem State.afterFetch_readReg (s : State) (w : InstrWord) (i : RegIdx) : (s.afterFetch w).readReg i = s.readReg i := rfl

/-! ## Idempotence of marking -/

@[simp] theorem State.markBegun_markBegun (s : State) : s.markBegun.markBegun = s.markBegun := rfl

theorem State.markBegun_of_begun {s : State} (h : s.begun = true) : s.markBegun = s := by
  cases s; simp_all [State.markBegun]

end Sys2Proof.Machine
end

