-- ==== Sys2Proof/Laws/Stages.lean ====
section
/-! SUPPORT. What each stage's work can do, said once: later proofs cite these and never unfold a stage. -/

namespace Sys2Proof.Machine

open Config (FunctTable)

/-! ## Work -/

@[simp] theorem Work.andThen_done (s : State) (k : State → Work) : (Work.done s).andThen k = k s := rfl
@[simp] theorem Work.andThen_raised (f : Fault) (s : State) (k : State → Work) :
    (Work.raised f s).andThen k = .raised f s := rfl
@[simp] theorem Work.andThen_refused (r : Refusal) (k : State → Work) :
    (Work.refused r).andThen k = .refused r := rfl
@[simp] theorem Work.andThen_done_right (w : Work) : w.andThen .done = w := by cases w <;> rfl
theorem Work.andThen_assoc (w : Work) (k l : State → Work) :
    (w.andThen k).andThen l = w.andThen fun s => (k s).andThen l := by cases w <;> rfl
@[simp] theorem Work.outcome_done (s : State) : (Work.done s).outcome = .next s := rfl
@[simp] theorem Work.outcome_raised (f : Fault) (s : State) : (Work.raised f s).outcome = .fault f := rfl
@[simp] theorem Work.outcome_refused (r : Refusal) : (Work.refused r).outcome = .refused r := rfl

/-! ## Each stage -/

/-- Fetch latches the word at `pc`, or raises OutOfBounds (R162). -/
theorem fetchWork_cases (s : State) :
    (∃ w, s.mem.loadWord s.pc.toNat = some w ∧ fetchWork s = .done (s.setLatches { s.latches with ir := w })) ∨
    (s.mem.loadWord s.pc.toNat = none ∧
      fetchWork s = raiseFault (.outOfBounds s.pc.toNat (.stage .fetch)) s) := by
  unfold fetchWork
  cases h : s.mem.loadWord s.pc.toNat with
  | some w => exact .inl ⟨w, rfl, rfl⟩
  | none => exact .inr ⟨rfl, rfl⟩

/-- The latches Decode has written when the two registers are read: fields, control bundle and operands. -/
def Latches.withOperands (l : Latches) (a b : Word) : Latches := { l.withFields with ctrl := rTypeBundle, a := a, b := b }

/-- Decode completes with every latch of the instruction, or raises one of the two faults, in the order of R208. -/
theorem decodeWork_cases (t : FunctTable) (s : State) :
    (opcodeField s.latches.ir ≠ 0 ∧
      decodeWork t s = raiseFault (.unsupportedOpcode (opcodeField s.latches.ir) .decode s.pc)
        (s.setLatches s.latches.withFields)) ∨
    (opcodeField s.latches.ir = 0 ∧ lookupFunct t (functField s.latches.ir) = none ∧
      decodeWork t s = raiseFault (.unsupportedFunct (functField s.latches.ir) .decode s.pc)
        (s.setLatches (s.latches.withOperands (s.readReg (rsField s.latches.ir)) (s.readReg (rtField s.latches.ir))))) ∨
    (∃ op, opcodeField s.latches.ir = 0 ∧ lookupFunct t (functField s.latches.ir) = some op ∧
      decodeWork t s = .done (s.setLatches { s.latches.withOperands (s.readReg (rsField s.latches.ir))
        (s.readReg (rtField s.latches.ir)) with op := op })) := by
  by_cases ho : opcodeField s.latches.ir = 0
  · have hc : controlFor s.latches.withFields.opcode = some rTypeBundle := by
      simp [controlFor, Latches.withFields, ho]
    cases hf : lookupFunct t (functField s.latches.ir) with
    | none =>
      refine .inr (.inl ⟨ho, rfl, ?_⟩)
      simp only [decodeWork, hc]
      simp [resolveAluOp, rTypeBundle, Latches.withOperands, Latches.withFields, hf]
    | some op =>
      refine .inr (.inr ⟨op, ho, rfl, ?_⟩)
      simp only [decodeWork, hc]
      simp [resolveAluOp, rTypeBundle, Latches.withOperands, Latches.withFields, hf]
  · have hc : controlFor s.latches.withFields.opcode = none := if_neg ho
    refine .inl ⟨ho, ?_⟩
    simp only [decodeWork, hc]
    rfl

/-- MemoryAccess does nothing, or is refused with a load or a store enabled (R165). -/
theorem memoryAccessWork_cases (s : State) :
    memoryAccessWork s = .done s ∨
    ((s.latches.ctrl.memRead = .enabled ∨ s.latches.ctrl.memWrite = .enabled) ∧
      memoryAccessWork s = .refused .memoryAccessEnabled) := by
  unfold memoryAccessWork
  split
  · exact .inr ⟨‹_›, rfl⟩
  · exact .inl rfl

/-- WriteBack completes, with `pc` advanced and at most the destination register written (R166). -/
theorem writeBackWork_cases (s : State) :
    ∃ s', writeBackWork s = .done s' ∧ s'.pc = s.pc + 4 ∧ s'.mem = s.mem ∧ s'.stage = s.stage ∧
      s'.status = s.status ∧ s'.begun = s.begun ∧ s'.latches = { s.latches with wb := s.latches.writeBackValue } ∧
      (s.latches.ctrl.regWrite = .enabled →
        s'.regs = (s.writeReg s.latches.destination s.latches.writeBackValue).regs) ∧
      (s.latches.ctrl.regWrite = .disabled → s'.regs = s.regs) := by
  refine ⟨_, rfl, ?_⟩
  cases h : s.latches.ctrl.regWrite <;>
    simp [State.advancePc, State.setPc, State.setLatches, State.writeReg]

/-! ## One stage of the machine -/

/-- RunStage after a stage that completes: on to its successor (R167). -/
theorem runStage_done {t : FunctTable} {s s' : State} {st : Stage} (hst : s.stage = st)
    (h : stageWork t st s = .done s') : runStage t s = .done (s'.setStage st.next) := by
  subst hst
  simp [runStage, h]

/-- RunStage after a stage that raises a fault: the rest is not performed (R167). -/
theorem runStage_raised {t : FunctTable} {s s' : State} {st : Stage} {f : Fault} (hst : s.stage = st)
    (h : stageWork t st s = .raised f s') : runStage t s = .raised f s' := by
  subst hst
  simp [runStage, h]

theorem runStage_refused {t : FunctTable} {s : State} {st : Stage} {r : Refusal} (hst : s.stage = st)
    (h : stageWork t st s = .refused r) : runStage t s = .refused r := by
  subst hst
  simp [runStage, h]

/-- What every stage leaves alone, whichever way it ends: a completed stage keeps memory, status and `begun` and moves on
to its successor; only WriteBack touches registers and `pc`; a fault keeps registers, `pc`, memory and stage, comes from
Fetch or Decode, and halts (R167, R174, R207). -/
theorem runStage_cases (t : FunctTable) (s : State) :
    (∃ s', runStage t s = .done s' ∧ s'.stage = s.stage.next ∧ s'.mem = s.mem ∧ s'.status = s.status ∧
      s'.begun = s.begun ∧ (s.stage ≠ .writeBack → s'.regs = s.regs ∧ s'.pc = s.pc) ∧
      (s.stage = .writeBack → s'.pc = s.pc + 4)) ∨
    (∃ f s', runStage t s = .raised f s' ∧ s'.regs = s.regs ∧ s'.pc = s.pc ∧ s'.mem = s.mem ∧ s'.stage = s.stage ∧
      s'.begun = s.begun ∧ s'.status = .halted f ∧ (s.stage = .fetch ∨ s.stage = .decode)) ∨
    (runStage t s = .refused .memoryAccessEnabled ∧ s.stage = .memoryAccess ∧
      (s.latches.ctrl.memRead = .enabled ∨ s.latches.ctrl.memWrite = .enabled)) := by
  cases hst : s.stage with
  | fetch =>
    obtain ⟨w, -, h⟩ | ⟨-, h⟩ := fetchWork_cases s
    · exact .inl ⟨_, runStage_done hst h, rfl, rfl, rfl, rfl, fun _ => ⟨rfl, rfl⟩, by simp⟩
    · exact .inr (.inl ⟨_, _, runStage_raised hst h, rfl, rfl, rfl, hst, rfl, rfl, .inl rfl⟩)
  | decode =>
    obtain ⟨-, h⟩ | ⟨-, -, h⟩ | ⟨op, -, -, h⟩ := decodeWork_cases t s
    · exact .inr (.inl ⟨_, _, runStage_raised hst h, rfl, rfl, rfl, hst, rfl, rfl, .inr rfl⟩)
    · exact .inr (.inl ⟨_, _, runStage_raised hst h, rfl, rfl, rfl, hst, rfl, rfl, .inr rfl⟩)
    · exact .inl ⟨_, runStage_done hst h, rfl, rfl, rfl, rfl, fun _ => ⟨rfl, rfl⟩, by simp⟩
  | execute =>
    exact .inl ⟨_, runStage_done hst (rfl : executeWork s = _), rfl, rfl, rfl, rfl, fun _ => ⟨rfl, rfl⟩, by simp⟩
  | memoryAccess =>
    obtain h | ⟨he, h⟩ := memoryAccessWork_cases s
    · exact .inl ⟨_, runStage_done hst h, rfl, rfl, rfl, rfl, fun _ => ⟨rfl, rfl⟩, by simp⟩
    · exact .inr (.inr ⟨runStage_refused hst h, rfl, he⟩)
  | writeBack =>
    obtain ⟨s', h, hpc, hmem, -, hstatus, hbegun, -⟩ := writeBackWork_cases s
    exact .inl ⟨_, runStage_done hst h, rfl, hmem, hstatus, hbegun, by simp, fun _ => hpc⟩

/-! ## Several stages -/

/-- After `n` completed stages the stage has moved on `n` times (R30, R167). -/
theorem runStages_stage {t : FunctTable} {n : Nat} {s s' : State} (h : runStages t n s = .done s') :
    s'.stage = Stage.next^[n] s.stage := by
  induction n generalizing s with
  | zero => cases h; rfl
  | succ n ih =>
    simp only [runStages] at h
    obtain ⟨s1, h1, h2, -⟩ | ⟨f, s1, h1, -⟩ | ⟨h1, -⟩ := runStage_cases t s <;> rw [h1] at h
    · rw [Function.iterate_succ_apply, ← h2]
      exact ih h
    · cases h
    · cases h

/-- What several stages do to the run status: kept by stages that complete, halted by a fault, and a refusal is
MemoryAccess's (R165, R205). -/
theorem runStages_status (t : FunctTable) (n : Nat) (s : State) :
    (∃ s', runStages t n s = .done s' ∧ s'.status = s.status) ∨
    (∃ f s', runStages t n s = .raised f s' ∧ s'.status = .halted f) ∨
    runStages t n s = .refused .memoryAccessEnabled := by
  induction n generalizing s with
  | zero => exact .inl ⟨s, rfl, rfl⟩
  | succ n ih =>
    simp only [runStages]
    obtain ⟨s', h, -, -, hs, -⟩ | ⟨f, s', h, -, -, -, -, -, hs, -⟩ | ⟨h, -⟩ := runStage_cases t s <;> rw [h]
    · simpa [hs] using ih s'
    · exact .inr (.inl ⟨f, s', rfl, hs⟩)
    · exact .inr (.inr rfl)

/-- In mid-cycle, finishing runs exactly the stages that remain (R170, R171). -/
theorem finishInFlight_eq (t : FunctTable) {n fuel : Nat} {s : State} (hfuel : n ≤ fuel) (hs : s.stage ≠ .fetch)
    (hn : s.stage.remaining = n) : finishInFlight t fuel s = runStages t n s := by
  induction n generalizing fuel s with
  | zero => revert hn; cases s.stage <;> simp [Stage.remaining]
  | succ n ih =>
    obtain ⟨fuel, rfl⟩ : ∃ k, fuel = k + 1 := ⟨fuel - 1, by omega⟩
    simp only [finishInFlight, if_neg hs, runStages]
    obtain ⟨s', h, h1, -⟩ | ⟨f, s', h, -⟩ | ⟨h, -⟩ := runStage_cases t s <;> rw [h]
    · simp only [Work.andThen_done]
      by_cases hf : s'.stage = .fetch
      · have : n = 0 := by
          rw [h1] at hf
          revert hf hn
          cases s.stage <;> simp [Stage.next, Stage.remaining]
        subst this
        cases fuel <;> simp [finishInFlight, runStages, hf]
      · refine ih (by omega) hf ?_
        rw [h1] at hf ⊢
        revert hf hn hs
        cases s.stage <;> simp [Stage.next, Stage.remaining] <;> omega
    · rfl
    · rfl

/-- On a running machine Execute-instruction() runs exactly the stages that remain, from Fetch all five (R170). -/
theorem executeInstruction_running (t : FunctTable) {s : State} (h : s.status = .running) :
    executeInstruction t s = runStages t s.stage.remaining s.markBegun := by
  simp only [executeInstruction, whenRunning, h, runInstruction]
  by_cases hf : s.stage = .fetch
  · rw [if_pos (by exact hf), hf]
    rfl
  · rw [if_neg (by exact hf)]
    exact finishInFlight_eq t (by revert hf; cases s.stage <;> simp [Stage.remaining]) hf rfl

/-- Once execution has begun, repeated Execute-stage() calls on a running machine are repeated stages (R168). -/
theorem executeStages_begun (t : FunctTable) (n : Nat) {s : State} (hs : s.status = .running) (hb : s.begun = true) :
    executeStages t n s = runStages t n s := by
  induction n generalizing s with
  | zero => rfl
  | succ n ih =>
    simp only [executeStages, runStages, executeStage, whenRunning, hs, State.markBegun_of_begun hb]
    obtain ⟨s', h, -, -, h2, h3, -⟩ | ⟨f, s', h, -⟩ | ⟨h, -⟩ := runStage_cases t s <;> rw [h]
    · exact ih (h2.trans hs) (h3.trans hb)
    · rfl
    · rfl

end Sys2Proof.Machine
end

