-- ==== Sys2Proof/Laws/Host.lean ====
section
/-! SUPPORT. What the host's calls can do, said once. -/

namespace Sys2Proof.Machine

open Config (FunctTable)

/-- A host write runs on a running machine before the first Execute call, and is refused otherwise (R179). -/
theorem whenLoading_cases (s : State) (write : State → Work) :
    (s.status = .running ∧ s.begun = false ∧ whenLoading s write = write s) ∨
    (∃ r, whenLoading s write = .refused r ∧ (s.begun = true ∨ ∃ f, s.status = .halted f)) := by
  unfold whenLoading
  cases hs : s.status with
  | halted f => exact .inr ⟨_, rfl, .inr ⟨f, rfl⟩⟩
  | running =>
    cases hb : s.begun with
    | true => exact .inr ⟨_, rfl, .inl rfl⟩
    | false => exact .inl ⟨rfl, rfl, by simp⟩

/-- An Execute call runs on a running machine and is refused on a halted one (R173). -/
theorem whenRunning_cases (s : State) (call : State → Work) :
    (s.status = .running ∧ whenRunning s call = call s.markBegun) ∨
    (∃ f, s.status = .halted f ∧ whenRunning s call = .refused .machineHalted) := by
  unfold whenRunning
  cases hs : s.status with
  | halted f => exact .inr ⟨f, rfl, rfl⟩
  | running => exact .inl ⟨rfl, rfl⟩

/-- Get-register depends on the register file and `pc` alone (R180). -/
theorem getRegister_congr {s t : State} (hr : s.regs = t.regs) (hp : s.pc = t.pc) (names : Config.NameTable)
    (key : RegKey) : getRegister names key s = getRegister names key t := by
  have h : s.readReg = t.readReg := funext (readReg_congr hr)
  cases key <;> simp only [getRegister, h, hp]

/-- A name has a register exactly when the table lists it. -/
theorem lookupName_isSome (table : List (String × RegIdx)) (name : String) :
    (lookupName table name).isSome = (table.map Prod.fst).contains name := by
  induction table with
  | nil => rfl
  | cons row rest ih =>
    obtain ⟨n, i⟩ := row
    simp only [lookupName, List.map_cons, List.contains_cons]
    by_cases h : n = name
    · simp [h]
    · have : (name == n) = false := by simpa using fun e => h e.symm
      rw [if_neg h, ih, this, Bool.false_or]

/-- In a table without a name twice, a listed name has the register of its row. -/
theorem lookupName_of_mem {table : List (String × RegIdx)} (hd : distinct (table.map Prod.fst) = true)
    {name : String} {i : RegIdx} (h : (name, i) ∈ table) : lookupName table name = some i := by
  induction table with
  | nil => cases h
  | cons row rest ih =>
    obtain ⟨n, j⟩ := row
    simp only [List.map_cons, distinct, Bool.and_eq_true, Bool.not_eq_true', List.contains_eq_mem,
      decide_eq_false_iff_not] at hd
    rcases List.mem_cons.mp h with h | h
    · cases h
      exact if_pos rfl
    · rw [lookupName, if_neg]
      · exact ih hd.2 h
      · rintro rfl
        exact hd.1 (List.mem_map.mpr ⟨_, h, rfl⟩)

/-- In two tables one after the other, the first that lists a name decides. -/
theorem lookupName_append (front back : List (String × RegIdx)) (name : String) :
    lookupName (front ++ back) name = (lookupName front name).or (lookupName back name) := by
  induction front with
  | nil => rfl
  | cons row rest ih =>
    obtain ⟨n, i⟩ := row
    simp only [List.cons_append, lookupName]
    split
    · rfl
    · exact ih

/-- A name that the table does not list has no register. -/
theorem lookupName_of_not_mem {table : List (String × RegIdx)} {name : String} (h : name ∉ table.map Prod.fst) :
    lookupName table name = none := by
  rw [← Option.not_isSome_iff_eq_none, lookupName_isSome, List.contains_iff_mem]
  exact h

@[simp] theorem Work.after_done (s s' : State) : (Work.done s').after s = s' := rfl
@[simp] theorem Work.after_raised (f : Fault) (s s' : State) : (Work.raised f s').after s = s' := rfl
@[simp] theorem Work.after_refused (r : Refusal) (s : State) : (Work.refused r).after s = s := rfl

/-! ## Runs (R183) -/

@[simp] theorem Work.inRun_done (s s' : State) : (Work.done s').inRun s = .ok s' := rfl
@[simp] theorem Work.inRun_raised (f : Fault) (s s' : State) : (Work.raised f s').inRun s = .ok s' := rfl
@[simp] theorem Work.inRun_machineHalted (s : State) : (Work.refused .machineHalted).inRun s = .ok s := rfl

/-- Every refusal but a halted machine's marks the run refused (U5, U17). -/
theorem Work.inRun_refused {r : Refusal} (h : r ≠ .machineHalted) (s : State) : (Work.refused r).inRun s = .error r := by
  simp [Work.inRun, Refusal.marksRun, h]

@[simp] theorem runOutcome_error (r : Refusal) : runOutcome (.error r) = .refused r := rfl

theorem runOutcome_running {s : State} (h : s.status = .running) : runOutcome (.ok s) = .next s := by
  simp [runOutcome, h]

theorem runOutcome_halted {s : State} {f : Fault} (h : s.status = .halted f) : runOutcome (.ok s) = .fault f := by
  simp [runOutcome, h]

/-- Calls after calls: the run goes on from the machine the first ones left, or stays refused. -/
theorem hostCalls_append (t : FunctTable) (cs ds : List HostCall) (s : State) :
    hostCalls t (cs ++ ds) s = (hostCalls t cs s).bind (hostCalls t ds) := by
  induction cs generalizing s with
  | nil => rfl
  | cons c cs ih =>
    simp only [List.cons_append, hostCalls]
    cases (hostWork t c s).inRun s with
    | ok s' => exact ih s'
    | error r => rfl

/-- No call changes a halted machine, and none marks its run refused (R173, U18). -/
theorem hostWork_halted (t : FunctTable) (c : HostCall) {s : State} {f : Fault} (h : s.status = .halted f) :
    hostWork t c s = .done s ∨ hostWork t c s = .refused .machineHalted := by
  cases c <;> simp [hostWork, whenLoading, executeInstruction, executeStage, whenRunning, h]

theorem hostCalls_halted (t : FunctTable) (cs : List HostCall) {s : State} {f : Fault} (h : s.status = .halted f) :
    hostCalls t cs s = .ok s := by
  induction cs with
  | nil => rfl
  | cons c cs ih =>
    obtain e | e := hostWork_halted t c h <;> simpa only [hostCalls, e, Work.inRun_done, Work.inRun_machineHalted]

/-- A bulk load completes with the run status kept, or halts the machine. -/
theorem loadWork_cases (s : State) (loaded : Memory × Option Nat) :
    (loaded.2 = none ∧ loadWork s loaded = .done (s.setMem loaded.1)) ∨
    (∃ a, loaded.2 = some a ∧ loadWork s loaded = raiseFault (.outOfBounds a .hostLoad) (s.setMem loaded.1)) := by
  unfold loadWork
  cases h : loaded.2 with
  | none => exact .inl ⟨rfl, rfl⟩
  | some a => exact .inr ⟨a, rfl, rfl⟩

/-- What a call does to the run status of a running machine: kept by a call that completes, halted by a fault; a refusal is
not a halted machine's, so it marks the run refused (R179, R205). -/
theorem hostWork_running (t : FunctTable) (c : HostCall) {s : State} (h : s.status = .running) :
    (∃ s', hostWork t c s = .done s' ∧ s'.status = .running) ∨
    (∃ f s', hostWork t c s = .raised f s' ∧ s'.status = .halted f) ∨
    (∃ r, hostWork t c s = .refused r ∧ r ≠ .machineHalted) := by
  have stages (n : Nat) :
      (∃ s', runStages t n s.markBegun = .done s' ∧ s'.status = .running) ∨
      (∃ f s', runStages t n s.markBegun = .raised f s' ∧ s'.status = .halted f) ∨
      (∃ r, runStages t n s.markBegun = .refused r ∧ r ≠ .machineHalted) := by
    obtain ⟨s', e, e'⟩ | e | e := runStages_status t n s.markBegun
    · exact .inl ⟨s', e, e'.trans h⟩
    · exact .inr (.inl e)
    · exact .inr (.inr ⟨_, e, by simp⟩)
  have load (loaded : Memory × Option Nat) :
      (∃ s', whenLoading s (loadWork · loaded) = .done s' ∧ s'.status = .running) ∨
      (∃ f s', whenLoading s (loadWork · loaded) = .raised f s' ∧ s'.status = .halted f) ∨
      (∃ r, whenLoading s (loadWork · loaded) = .refused r ∧ r ≠ .machineHalted) := by
    simp only [whenLoading, h]
    cases s.begun with
    | true => exact .inr (.inr ⟨_, rfl, by simp⟩)
    | false =>
      obtain ⟨-, e⟩ | ⟨a, -, e⟩ := loadWork_cases s loaded
      · exact .inl ⟨_, e, h⟩
      · exact .inr (.inl ⟨_, _, e, rfl⟩)
  cases c with
  | loadWords base ws => simpa only [hostWork, whenLoading, h] using load (s.mem.loadWords base.toNat ws)
  | loadBytes base bs => simpa only [hostWork, whenLoading, h] using load (s.mem.loadBytes base.toNat bs)
  | presetReg i v => cases hb : s.begun <;> simp [hostWork, whenLoading, h, hb]
  | presetPc v => cases hb : s.begun <;> simp [hostWork, whenLoading, h, hb]
  | executeInstruction =>
    simp only [hostWork, executeInstruction_running t h]
    exact stages _
  | executeStage => simpa [hostWork, executeStage, whenRunning, h, runStages] using stages 1
  | getRegister key => exact .inl ⟨s, rfl, h⟩

end Sys2Proof.Machine
end

