-- ==== Sys2Proof/Laws/Meaning.lean ====
section
/-! SUPPORT. What the common behaviour of the six instructions leaves in each field, and the one equation that sends every
meaning to it: later proofs cite these and never unfold a meaning. -/

namespace Sys2Proof.Machine

section
variable (op : AluOp) (funct : BitVec 6) (rd rs rt : RegIdx) (shamt : BitVec 5) (s : State)

/-- The destination holds the operation's result on the registers before the instruction (R140, R147). -/
@[simp] theorem rTypeEffect_readReg_rd :
    (rTypeEffect op funct rd rs rt shamt s).readReg rd = evalAlu op (s.readReg rs) (s.readReg rt) := by
  simp [rTypeEffect]

/-- Every other register is unchanged. -/
theorem rTypeEffect_readReg_ne {r : RegIdx} (h : r ≠ rd) :
    (rTypeEffect op funct rd rs rt shamt s).readReg r = s.readReg r := by
  simp [rTypeEffect, h]

@[simp] theorem rTypeEffect_pc : (rTypeEffect op funct rd rs rt shamt s).pc = s.pc + 4 := rfl
@[simp] theorem rTypeEffect_mem : (rTypeEffect op funct rd rs rt shamt s).mem = s.mem := rfl
@[simp] theorem rTypeEffect_stage : (rTypeEffect op funct rd rs rt shamt s).stage = .fetch := rfl
@[simp] theorem rTypeEffect_status : (rTypeEffect op funct rd rs rt shamt s).status = s.status := rfl
@[simp] theorem rTypeEffect_begun : (rTypeEffect op funct rd rs rt shamt s).begun = s.begun := rfl
@[simp] theorem rTypeEffect_latches : (rTypeEffect op funct rd rs rt shamt s).latches =
    s.latches.ofRType op funct rd rs rt shamt (s.readReg rs) (s.readReg rt) := rfl
@[simp] theorem rTypeEffect_regs : (rTypeEffect op funct rd rs rt shamt s).regs =
    (s.writeReg rd (evalAlu op (s.readReg rs) (s.readReg rt))).regs := rfl

end

/-- Every instruction completes, with the common behaviour of its operation and fields (R140). -/
theorem exec_eq (i : Instr) (s : State) :
    exec i s = .next (rTypeEffect i.aluOp i.funct i.rd i.rs i.rt i.shamt s) := by
  cases i <;> rfl

/-- If an instruction answers a next state, it is that one. -/
theorem exec_cases {i : Instr} {s t : State} (h : exec i s = .next t) :
    t = rTypeEffect i.aluOp i.funct i.rd i.rs i.rt i.shamt s := by
  rw [exec_eq] at h
  cases h
  rfl

end Sys2Proof.Machine
end

