-- ==== Sys2Proof/Laws/PerInstr.lean ====
section
/-! SUPPORT. The family `FunctRow`: an instruction's funct code is a row of the default funct table and the row names the
instruction's own operation, one lemma per constructor of `Instr` (30_encoding.md R78). -/

namespace Sys2Proof.Laws.FunctRow

/-- The row of the instruction's funct code, and the instruction that row and the fields give back. -/
def Statement (i : Instr) : Prop :=
  lookupFunct functTable i.funct = some i.aluOp ∧ Instr.ofAluOp i.aluOp i.rd i.rs i.rt i.shamt = some i

theorem add (rd rs rt : RegIdx) (shamt : BitVec 5) : Statement (.add rd rs rt shamt) := ⟨rfl, rfl⟩
theorem sub (rd rs rt : RegIdx) (shamt : BitVec 5) : Statement (.sub rd rs rt shamt) := ⟨rfl, rfl⟩
theorem and (rd rs rt : RegIdx) (shamt : BitVec 5) : Statement (.and rd rs rt shamt) := ⟨rfl, rfl⟩
theorem or (rd rs rt : RegIdx) (shamt : BitVec 5) : Statement (.or rd rs rt shamt) := ⟨rfl, rfl⟩
theorem slt (rd rs rt : RegIdx) (shamt : BitVec 5) : Statement (.slt rd rs rt shamt) := ⟨rfl, rfl⟩
theorem sltu (rd rs rt : RegIdx) (shamt : BitVec 5) : Statement (.sltu rd rs rt shamt) := ⟨rfl, rfl⟩

end Sys2Proof.Laws.FunctRow
end

