-- ==== Sys2Proof/Laws/Step.lean ====
section
/-! SUPPORT. What fetching an instruction and a step can do, said once. -/

namespace Sys2Proof.Machine

/-- Fetching an instruction: the word at `pc` is decoded to it, or one of the three fatal errors, in the order of R208. -/
theorem fetchInstr_cases (s : State) :
    (s.mem.capacity ≤ s.pc.toNat + 3 ∧ fetchInstr s = .error (.outOfBounds s.pc.toNat (.stage .fetch))) ∨
    (∃ w, s.mem.loadWord s.pc.toNat = some w ∧ opcodeField w ≠ 0 ∧
      fetchInstr s = .error (.unsupportedOpcode (opcodeField w) .decode s.pc)) ∨
    (∃ w, s.mem.loadWord s.pc.toNat = some w ∧ opcodeField w = 0 ∧ lookupFunct functTable (functField w) = none ∧
      fetchInstr s = .error (.unsupportedFunct (functField w) .decode s.pc)) ∨
    (∃ w i, s.mem.loadWord s.pc.toNat = some w ∧ decodeWord w = .ok i ∧ fetchInstr s = .ok (i, s.afterFetch w)) := by
  cases hw : s.mem.loadWord s.pc.toNat with
  | none => exact .inl ⟨Memory.loadWord_eq_none.mp hw, by simp [fetchInstr, hw]⟩
  | some w =>
    refine .inr ?_
    by_cases ho : opcodeField w = 0
    · cases hf : lookupFunct functTable (functField w) with
      | none =>
        exact .inr (.inl ⟨w, rfl, ho, hf, by simp [fetchInstr, hw, decodeWord_funct ho hf, wordFault]⟩)
      | some op =>
        obtain ⟨i, hi, -⟩ := decodeWord_row ho hf
        exact .inr (.inr ⟨w, i, rfl, hi, by simp [fetchInstr, hw, hi]⟩)
    · exact .inl ⟨w, rfl, ho, by simp [fetchInstr, hw, decodeWord_opcode ho, wordFault]⟩

/-- If a step answers a next state, the machine was running, and either it ran the decoded instruction at `pc`, or it
finished the one in flight (R170). -/
theorem step_cases {s t : State} (h : step s = .next t) :
    s.status = .running ∧
    ((s.stage = .fetch ∧ ∃ w i, s.mem.loadWord s.pc.toNat = some w ∧ decodeWord w = .ok i ∧
        t = rTypeEffect i.aluOp i.funct i.rd i.rs i.rt i.shamt (s.markBegun.afterFetch w)) ∨
      (s.stage ≠ .fetch ∧ (finishInFlight functTable 4 s.markBegun).outcome = .next t)) := by
  unfold step at h
  split at h
  · cases h
  · rename_i hrun
    refine ⟨hrun, ?_⟩
    split at h
    · rename_i hst
      refine .inl ⟨hst, ?_⟩
      obtain ⟨-, he⟩ | ⟨w, -, -, he⟩ | ⟨w, -, -, -, he⟩ | ⟨w, i, hw, hi, he⟩ := fetchInstr_cases s.markBegun
      · rw [he] at h; cases h
      · rw [he] at h; cases h
      · rw [he] at h; cases h
      · rw [he] at h
        exact ⟨w, i, by simpa using hw, hi, exec_cases h⟩
    · exact .inr ⟨‹_›, h⟩

end Sys2Proof.Machine
end

