-- ==== Sys2Proof/Tests/Slice0.lean ====
section
/-! SUPPORT. Tests, expected values from the spec's vectors (95_test_vectors.md) or worked examples, and for each statement that
has hypotheses a witness that meets them. -/

namespace Sys2Proof.Tests

open Sys2Proof.Machine

/-! ## A small machine -/

/-- The spec's scenario: capacity 4096, a word at address 0, two presets of `$t0` and `$t1`. -/
def machine (w : InstrWord) (t0 t1 : Word) : State :=
  hostCall functTable (.presetReg 9 t1) (hostCall functTable (.presetReg 8 t0)
    (hostCall functTable (.loadWords 0 [w]) State.reset))

def nextOf : Host.Outcome State Fault Refusal → Option State
  | .next s => some s
  | _ => none

def faultOf : Host.Outcome State Fault Refusal → Option Fault
  | .fault f => some f
  | _ => none

/-- A register and `pc` after one step. -/
def stepReads (s : State) (i : RegIdx) : Option (Word × Word) := (nextOf (step s)).map fun t => (t.readReg i, t.pc)

def stateOf : Work → Option State
  | .done s => some s
  | .raised _ s => some s
  | .refused _ => none

/-! ## Well-formedness: each check refuses an ill-formed term -/

theorem test_every_instruction_is_wellFormed : (Instr.add 31 31 31 31).wellFormed = true := by decide
theorem test_capacity_below_a_word_is_refused : Config.capacityOk 3 = false ∧ Config.capacityOk 4 = true := by decide
theorem test_capacity_at_the_limit_is_refused :
    Config.capacityOk (2 ^ 64 - 4) = false ∧ Config.capacityOk (2 ^ 64 - 5) = true := by decide
theorem test_funct_with_two_rows_is_refused :
    Config.FunctTable.wellFormed [(0x20, .add), (0x20, .sub)] = false := by decide
theorem test_default_tables_are_wellFormed :
    Config.FunctTable.wellFormed functTable = true ∧ Config.FunctTable.wellFormed strictFunctTable = true := by decide
theorem test_name_twice_is_refused :
    Config.NameTable.namesDistinct { gpr := [("$t1", 9), ("$t1", 8)], pc := "p" } = false := by decide
theorem test_register_without_a_name_is_refused :
    Config.NameTable.namesEvery { gpr := [("$t1", 9)], pc := "p" } = false := by decide
theorem test_pc_name_of_a_register_is_refused : (defaultNames "$t1").pcNameReserved = false := by decide
theorem test_default_names_are_wellFormed : (defaultNames "p").wellFormed = true := by decide
theorem test_unknown_mnemonic_is_refused :
    AsmLine.wellFormed (registerSpellings (defaultNames "p")) ⟨"addu", "$t1", "$t1", "$t1"⟩ = false := by decide
theorem test_unknown_operand_is_refused :
    AsmLine.wellFormed (registerSpellings (defaultNames "p")) ⟨"add", "$t1", "$32", "$t1"⟩ = false := by decide
theorem test_memory_out_of_order_is_refused :
    Memory.wf ⟨4096, [(2, 1), (1, 1)]⟩ = false ∧ Memory.wf ⟨4096, [(1, 0)]⟩ = false ∧
      Memory.wf ⟨4096, [(4096, 1)]⟩ = false ∧ Memory.wf ⟨4096, [(1, 1), (4095, 1)]⟩ = true := by decide

/-! ## Decoding: words written out bit by bit (R73, R78; vectors V3, V6) -/

theorem test_decode_add : decodeTableWord 32 0b000000_01001_01001_01001_00000_100000 = some (.add 9 9 9 0) := by decide
theorem test_decode_sub : decodeTableWord 32 0b000000_01001_01010_01011_00000_100010 = some (.sub 11 9 10 0) := by decide
theorem test_decode_and : decodeTableWord 32 0b000000_01000_01001_01010_00000_100100 = some (.and 10 8 9 0) := by decide
theorem test_decode_or : decodeTableWord 32 0b000000_01000_01001_01010_00000_100101 = some (.or 10 8 9 0) := by decide
theorem test_decode_slt : decodeTableWord 32 0b000000_01000_01001_01010_00000_101010 = some (.slt 10 8 9 0) := by decide
theorem test_decode_sltu : decodeTableWord 32 0b000000_11111_11111_11111_00000_101011 = some (.sltu 31 31 31 0) := by decide
theorem test_decode_shamt : decodeTableWord 32 0b000000_01001_01001_01001_11111_100000 = some (.add 9 9 9 31) := by decide
theorem test_encode_worked_example : encodeBytes (.add 9 9 9 0) = [0x01, 0x29, 0x48, 0x20] := by decide
theorem test_zero_word_is_rejected : decodeWord 0x00000000 = .error (.unsupportedFunct 0) := by decide
theorem test_addu_is_rejected : decodeWord 0x00000021 = .error (.unsupportedFunct 0x21) := by decide
theorem test_opcode_comes_first : decodeWord 0xFC000020 = .error (.unsupportedOpcode 63) := by decide
theorem test_addi_is_rejected : decodeWord 0x20080005 = .error (.unsupportedOpcode 8) := by decide
theorem test_three_bytes_are_truncated : decode [1, 2, 3] = .error (.truncated 3) := by rfl

/-! ## The instructions (vector V6) -/

theorem test_add_doubles_its_own_destination : stepReads (machine 0x01294820 0 5) 9 = some (10, 4) := by decide
theorem test_add_wraps : stepReads (machine 0x01095020 0xFFFFFFFFFFFFFFFF 2) 10 = some (1, 4) := by decide
theorem test_sub_wraps : stepReads (machine 0x01095022 3 5) 10 = some (0xFFFFFFFFFFFFFFFE, 4) := by decide
theorem test_and_masks :
    stepReads (machine 0x01095024 0xFF00FF00FF00FF00 0x0F0F0F0F0F0F0F0F) 10 = some (0x0F000F000F000F00, 4) := by decide
theorem test_or_joins : stepReads (machine 0x01095025 0xF0 0x0F) 10 = some (0xFF, 4) := by decide
theorem test_slt_is_signed : stepReads (machine 0x0109502A 0xFFFFFFFFFFFFFFFF 1) 10 = some (1, 4) := by decide
theorem test_sltu_is_unsigned : stepReads (machine 0x0109502B 0xFFFFFFFFFFFFFFFF 1) 10 = some (0, 4) := by decide
theorem test_register_zero_is_written : stepReads (machine 0x01080020 7 0) 0 = some (14, 4) := by decide
theorem test_shamt_is_ignored : stepReads (machine 0x01294FE0 0 5) 9 = some (10, 4) := by decide

/-! ## ALU corners (vector V5) and the immediate (vector V2) -/

theorem test_alu_slt_extremes : evalAlu .slt 0x7FFFFFFFFFFFFFFF 0x8000000000000000 = 0 ∧
    evalAlu .slt 0x8000000000000000 0x7FFFFFFFFFFFFFFF = 1 := by decide
theorem test_alu_shl16 : evalAlu .shl16 0xDEAD 0x1234 = 0x12340000 ∧ evalAlu .shl16 0 0xFFFF000000000001 = 0x10000 := by
  decide
theorem test_alu_not : evalAlu .not 0x00000000FFFFFFFF 7 = 0xFFFFFFFF00000000 := by decide
theorem test_signExtend : signExtendImm 0x8000 = 0xFFFFFFFFFFFF8000 ∧ signExtendImm 0x7FFF = 0x7FFF := by decide

/-! ## Memory (vector V1) -/

theorem test_unaligned_store_reads_back :
    ((State.reset.mem.storeWord 5 0xA1B2C3D4).bind fun m => m.loadWord 4) = some 0x00A1B2C3 ∧
    ((State.reset.mem.storeWord 5 0xA1B2C3D4).bind fun m => m.loadWord 6) = some 0xB2C3D400 := by decide
theorem test_word_bounds : State.reset.mem.loadWord 4092 = some 0 ∧ State.reset.mem.loadWord 4093 = none ∧
    State.reset.mem.loadWord 0xFFFFFFFFFFFFFFFE = none := by decide
theorem test_byte_bounds : (State.reset.mem.storeByte 4095 1).isSome = true ∧ State.reset.mem.storeByte 4096 1 = none := by
  decide
theorem test_smallest_memory : (State.construct 4).mem.loadWord 0 = some 0 ∧ (State.construct 4).mem.loadWord 1 = none := by
  decide
theorem test_writing_zero_unlists :
    ((State.reset.mem.setByte 7 3).setByte 7 0) = State.reset.mem := by decide

/-! ## The stage machine and the host (vectors V7, S7, P2) -/

theorem test_stages_leave_registers_until_writeBack :
    (stateOf (executeStages functTable 4 (machine 0x01294820 0 5))).map
      (fun s => (s.stage, s.readReg 9, s.pc, s.latches.alu)) = some (.writeBack, 5, 0, 10) := by decide
theorem test_fifth_stage_commits :
    (stateOf (executeStages functTable 5 (machine 0x01294820 0 5))).map
      (fun s => (s.stage, s.readReg 9, s.pc, s.latches.wb)) = some (.fetch, 10, 4, 10) := by decide
theorem test_seventh_stage_halts :
    (stateOf (executeStages functTable 7 (machine 0x01294820 0 5))).map (fun s => (s.stage, s.pc, s.status)) =
      some (.decode, 4, .halted (.unsupportedFunct 0 .decode 4)) := by decide
theorem test_mid_cycle_resume :
    (stateOf ((executeStages functTable 2 (machine 0x01294820 0 5)).andThen (executeInstruction functTable))).map
      (fun s => (s.stage, s.readReg 9, s.pc)) = some (.fetch, 10, 4) := by decide
theorem test_unsupported_opcode_halts :
    (hostCall functTable .executeInstruction (machine 0xFC000020 0 0)).status =
      .halted (.unsupportedOpcode 63 .decode 0) := by decide
theorem test_fetch_out_of_bounds :
    faultOf (step (hostCall functTable (.presetPc 4093) State.reset)) = some (.outOfBounds 4093 (.stage .fetch)) := by
  decide
theorem test_strict_table_faults :
    (hostCall strictFunctTable .executeInstruction (machine 0x012A5822 0 0)).status =
      .halted (.unsupportedFunct 0x22 .decode 0) := by decide
theorem test_host_write_after_begin_is_refused :
    hostAnswer functTable (defaultNames "p") (.presetPc 0) (hostCall functTable .executeStage (machine 0x01294820 0 5)) =
      .refused .hostWriteAfterBegin := by decide
/-- The outcome of a run of calls from the reset machine, `$t1` of the state where it is one (R183; vector V7). -/
def runReads (cs : List HostCall) : Host.Outcome Word Fault Refusal :=
  match runOutcome (hostCalls functTable cs State.reset) with
  | .next s => .next (s.readReg 9)
  | .fault f => .fault f
  | .refused r => .refused r
theorem test_run_with_a_late_write_is_refused :
    runReads [.loadWords 0 [0x01294820], .presetReg 9 5, .executeInstruction, .presetPc 0, .getRegister (.index 9)] =
      .refused .hostWriteAfterBegin := by rfl
theorem test_run_outcomes :
    runReads [.loadWords 0 [0x01294820], .presetReg 9 5, .executeInstruction] = .next 10 ∧
    runReads [.loadWords 0 [0x01294820], .executeInstruction, .executeInstruction, .executeInstruction] =
      .fault (.unsupportedFunct 0 .decode 4) := ⟨by rfl, by rfl⟩
theorem test_load_past_the_end_halts :
    (hostCall functTable (.loadBytes 4095 [1, 2]) State.reset).status = .halted (.outOfBounds 4096 .hostLoad) ∧
    (hostCall functTable (.loadBytes 4095 [1, 2]) State.reset).mem.byteAt 4095 = 1 := by decide
theorem test_getRegister :
    getRegister (defaultNames "p") (.name "$t1") (machine 0 0 5) = some 5 ∧
    getRegister (defaultNames "p") (.name "$nosuch") (machine 0 0 5) = none ∧
    getRegister (defaultNames "p") (.index 32) (machine 0 0 5) = none ∧
    getRegister (defaultNames "p") (.name "p") (machine 0 0 5) = some 0 := by decide
theorem test_assemble :
    assemble (defaultNames "p") ⟨"sub", "$t3", "$t1", "$10"⟩ = some (.sub 11 9 10 0) := by decide
theorem test_fault_codes : (Fault.unsupportedOpcode 1 .decode 0).code = 1 ∧
    (Fault.unsupportedFunct 1 .decode 0).code = 2 ∧ (Fault.outOfBounds 1 .hostLoad).code = 3 := by decide
theorem test_placed_word_runs : stepReads (State.reset.withFetchWord 32 0x01080025) 0 = some (0, 4) := by decide

/-! ## Witnesses: states and operands that meet the hypotheses of a statement, each clause at a boundary -/

/-- The bundle, or any latches, in a machine: a helper of the witnesses. -/
def withCtrl (c : ControlSignals) : State := State.reset.setLatches { Latches.initial with ctrl := c }

/-- The scenario of S6 and its machine after one instruction. -/
def addMachine : State := machine 0x01294820 0 5

theorem witness_SltCompletesWithSignedComparison :
    ((machine 0 (-1) 0).readReg 8).toInt < ((machine 0 (-1) 0).readReg 9).toInt ∧
    ((machine 0 3 3).readReg 9).toInt ≤ ((machine 0 3 3).readReg 8).toInt := by decide
theorem witness_SltuCompletesWithUnsignedComparison :
    ((machine 0 0 1).readReg 8).toNat < ((machine 0 0 1).readReg 9).toNat ∧
    ((machine 0 3 3).readReg 9).toNat ≤ ((machine 0 3 3).readReg 8).toNat := by decide
theorem witness_RTypeFrame : ∃ t, exec (.add 9 8 9 0) addMachine = .next t ∧ (8 : RegIdx) ≠ (Instr.add 9 8 9 0).rd :=
  ⟨_, rfl, by decide⟩
theorem witness_ShamtNeverMatters : (Instr.slt 1 2 3 0).aluOp = (Instr.slt 1 2 3 31).aluOp ∧
    (Instr.slt 1 2 3 0).rd = (Instr.slt 1 2 3 31).rd ∧ (Instr.slt 1 2 3 0).rs = (Instr.slt 1 2 3 31).rs ∧
    (Instr.slt 1 2 3 0).rt = (Instr.slt 1 2 3 31).rt := by decide
theorem witness_RegisterZeroIsOrdinary : (1 : RegIdx) ≠ 0 := by decide
theorem witness_LoadWordIsBigEndianInBounds : 4092 + 3 < State.reset.mem.capacity ∧ State.reset.mem.capacity ≤ 4093 + 3 ∧
    (State.reset.setPc 4092).pc.toNat + 3 < (State.reset.setPc 4092).mem.capacity ∧
    (State.reset.setPc 4093).mem.capacity ≤ (State.reset.setPc 4093).pc.toNat + 3 := by decide
theorem witness_StoreWordWritesItsFourBytes : State.reset.mem.wf = true ∧ 4092 + 3 < State.reset.mem.capacity ∧
    State.reset.mem.capacity ≤ 4093 + 3 := by decide
theorem witness_LoadAfterStoreReturnsTheWord : State.reset.mem.wf = true ∧
    ∃ m, State.reset.mem.storeWord 4092 0x01020304 = some m := ⟨by decide, _, rfl⟩
theorem witness_BulkLoadOfBytes : State.reset.mem.wf = true ∧ (1 : Nat) < [1, 2].length ∧
    4094 + 1 < State.reset.mem.capacity ∧ 4094 + [(1 : Byte), 2].length ≤ State.reset.mem.capacity ∧
    State.reset.mem.capacity < 4095 + [(1 : Byte), 2].length ∧ [(1 : Byte), 2] ≠ [] := by decide
theorem witness_BulkLoadOfWords : State.reset.mem.wf = true ∧
    4088 + 4 * [(1 : InstrWord), 2].length ≤ State.reset.mem.capacity ∧
    [(1 : InstrWord), 2] ≠ [] ∧ State.reset.mem.capacity < 4089 + 4 * [(1 : InstrWord), 2].length := by decide
theorem witness_CanonicalMemoryIsItsBytes : (addMachine.mem).wf = true ∧ addMachine.mem.capacity = addMachine.mem.capacity ∧
    ∀ a, addMachine.mem.byteAt a = addMachine.mem.byteAt a := ⟨by decide, rfl, fun _ => rfl⟩
theorem witness_ImmediateIsSignExtended :
    (0x7FFF : BitVec 16).getLsbD 15 = false ∧ (0x8000 : BitVec 16).getLsbD 15 = true := by decide
theorem witness_ShiftAndNotIgnoreAnOperand : (63 : Nat) < 64 ∧ controlFor 0 = some rTypeBundle ∧
    lookupFunct functTable 0x2B = some .sltu := by decide
theorem witness_ControlGeneratorNeverDefaults : (0 : BitVec 6) = 0 ∧ (63 : BitVec 6) ≠ 0 ∧
    opcodeField (State.reset.setLatches { Latches.initial with ir := 0xFC000000 }).latches.ir = 63 := by decide
/-- For `DecodeWritesTheWholeBundle` and `DecodeLatchesEveryField`: a Decode that completes. -/
theorem witness_DecodeCompletes :
    ∃ s', decodeWork functTable (State.reset.setLatches { Latches.initial with ir := 0x01294820 }) = .done s' := ⟨_, rfl⟩
/-- For `DecodeWritesTheWholeBundle`: a Decode that faults on its funct (`addu`, 0x21). -/
theorem witness_DecodeFaultsOnFunct : ∃ funct stage pc s', decodeWork functTable
    (State.reset.setLatches { Latches.initial with ir := 0x00000021 }) = .raised (.unsupportedFunct funct stage pc) s' :=
  ⟨_, _, _, _, rfl⟩
theorem witness_ResolverFollowsTheTable : opcodeField (withCtrl .initial).latches.ir = 0 ∧
    lookupFunct functTable (functField (withCtrl .initial).latches.ir) = none := by decide
theorem witness_ExecuteInvokesTheAlu : (withCtrl rTypeBundle).latches.ctrl.aluSrc = .register ∧
    (withCtrl { rTypeBundle with aluSrc := .immediate }).latches.ctrl.aluSrc = .immediate := by decide
theorem witness_MemoryAccessIsANoOp :
    ((withCtrl rTypeBundle).latches.ctrl.memRead = .disabled ∧ (withCtrl rTypeBundle).latches.ctrl.memWrite = .disabled) ∧
    (withCtrl { rTypeBundle with memWrite := .enabled }).latches.ctrl.memWrite = .enabled := by decide
theorem witness_WriteBackCommitsAndAdvances :
    ((withCtrl rTypeBundle).latches.ctrl.wbSrc = .aluResult ∧ (withCtrl rTypeBundle).latches.ctrl.regWrite = .enabled ∧
      (withCtrl rTypeBundle).latches.ctrl.regDst = .rd) ∧
    ((withCtrl { rTypeBundle with wbSrc := .memoryRead, regDst := .rt }).latches.ctrl.wbSrc = .memoryRead ∧
      (withCtrl { rTypeBundle with wbSrc := .memoryRead, regDst := .rt }).latches.ctrl.regWrite = .enabled ∧
      (withCtrl { rTypeBundle with wbSrc := .memoryRead, regDst := .rt }).latches.ctrl.regDst = .rt) ∧
    (withCtrl .initial).latches.ctrl.regWrite = .disabled := by decide
theorem witness_OneStageCall : addMachine.status = .running ∧
    (∃ u, stageWork functTable addMachine.stage addMachine.markBegun = .done u) ∧
    (∃ s', executeStage functTable addMachine = .done s') ∧
    (∃ f u, stageWork functTable (State.reset.setPc 4093).stage (State.reset.setPc 4093).markBegun = .raised f u) ∧
    ∃ r, stageWork functTable ((withCtrl { rTypeBundle with memRead := .enabled }).setStage .memoryAccess).stage
      ((withCtrl { rTypeBundle with memRead := .enabled }).setStage .memoryAccess).markBegun = .refused r :=
  ⟨rfl, ⟨_, rfl⟩, ⟨_, rfl⟩, ⟨_, _, rfl⟩, _, rfl⟩
theorem witness_ExecuteInstructionRunsACycleOrFinishesOne : addMachine.stage = .fetch ∧
    (∃ s', executeInstruction functTable addMachine = .done s') ∧
    (addMachine.setStage .decode).stage = .decode ∧ (addMachine.setStage .execute).stage = .execute ∧
    (addMachine.setStage .memoryAccess).stage = .memoryAccess ∧ (addMachine.setStage .writeBack).stage = .writeBack :=
  ⟨rfl, ⟨_, rfl⟩, rfl, rfl, rfl, rfl⟩
theorem witness_MidCycleResumeLosesNothing : addMachine.stage = .fetch ∧
    (∃ s', executeStages functTable 1 addMachine = .done s') ∧ ∃ s', executeStages functTable 4 addMachine = .done s' :=
  ⟨rfl, ⟨_, rfl⟩, _, rfl⟩
theorem witness_GetRegisterSeesOnlyWriteBack : addMachine.stage ≠ .writeBack := by decide
theorem witness_FatalErrorsArePrecise : ∃ f s', hostWork functTable .executeInstruction State.reset = .raised f s' :=
  ⟨_, _, rfl⟩
theorem witness_DecodedBytesAreTheEncoding : decode [0x01, 0x29, 0x48, 0x20, 7] = .ok (.add 9 9 9 0, [7]) := by rfl
theorem witness_EveryWordDecodesOrIsRejected : opcodeField 0x04000020 ≠ 0 ∧
    (opcodeField 0x03FFFFEC = 0 ∧ lookupFunct functTable (functField 0x03FFFFEC) = none) ∧
    (opcodeField 0x03FFFFEB = 0 ∧ lookupFunct functTable (functField 0x03FFFFEB) = some .sltu) := by decide
theorem witness_StepRunsTheDecodedInstruction : addMachine.status = .running ∧ addMachine.stage = .fetch ∧
    addMachine.pc.toNat + 3 < addMachine.mem.capacity ∧
    decode [addMachine.mem.byteAt addMachine.pc.toNat, addMachine.mem.byteAt (addMachine.pc.toNat + 1),
      addMachine.mem.byteAt (addMachine.pc.toNat + 2), addMachine.mem.byteAt (addMachine.pc.toNat + 3)] =
      .ok (.add 9 9 9 0, []) := ⟨rfl, rfl, by decide, rfl⟩
theorem witness_PlacedWordRunsNext : State.reset.mem.wf = true ∧
    (State.reset.setPc 4092).pc.toNat + 3 < State.reset.mem.capacity := by decide
theorem witness_NonzeroOpcodeIsFatal : (machine 0xFC000020 0 0).status = .running ∧
    (machine 0xFC000020 0 0).stage = .fetch ∧
    (machine 0xFC000020 0 0).mem.loadWord (machine 0xFC000020 0 0).pc.toNat = some 0xFC000020 ∧
    opcodeField 0xFC000020 ≠ 0 := by decide
theorem witness_FirstFatalErrorWins : (State.reset.setPc 4093).status = .running ∧ (State.reset.setPc 4093).stage = .fetch ∧
    (State.reset.setPc 4093).mem.capacity ≤ (State.reset.setPc 4093).pc.toNat + 3 ∧
    (State.reset.setPc 4092).mem.loadWord (State.reset.setPc 4092).pc.toNat = some 0 ∧
    lookupFunct functTable (functField 0) = none ∧
    addMachine.mem.loadWord addMachine.pc.toNat = some 0x01294820 ∧ opcodeField 0x01294820 = 0 ∧
    lookupFunct functTable (functField 0x01294820) ≠ none := by decide
theorem witness_ConstructionMeetsInv : Config.capacityOk 4 = true ∧ Config.capacityOk (2 ^ 64 - 5) = true := by decide
/-- A machine that meets the invariant, for `StepKeepsInv`, `HostCallKeepsInv` and `RunningMachineIsNeverRefused`. -/
theorem addMachine_inv : MachineInv functTable addMachine := by
  refine ⟨by decide, fun _ => rfl, fun _ => ⟨fun h => absurd rfl h, ?_, ?_⟩, fun f h => ?_⟩
  · rintro (h | h | h) <;> exact absurd h (by decide)
  · rintro (h | h) <;> exact absurd h (by decide)
  · exact absurd h (by simp [addMachine, machine, hostCall, hostWork, whenLoading, loadWork, State.reset,
      State.construct, State.writeReg, State.setMem, Memory.loadWords, Memory.storeWord, Memory.wordInBounds,
      Config.memCapacity])
theorem witness_StepKeepsInv : MachineInv functTable addMachine ∧ ∃ t, step addMachine = .next t := ⟨addMachine_inv, _, rfl⟩
theorem witness_HostCallKeepsInv : MachineInv functTable addMachine := addMachine_inv
theorem witness_RunningMachineIsNeverRefused : MachineInv functTable addMachine ∧ addMachine.status = .running :=
  ⟨addMachine_inv, rfl⟩
theorem witness_StepKeepsPcAligned : PcAligned addMachine ∧ ∃ t, step addMachine = .next t := ⟨by decide, _, rfl⟩
theorem witness_HaltedMachineStaysHalted : (hostCall functTable .executeInstruction State.reset).status =
    .halted (.unsupportedFunct 0 .decode 0) := by decide
theorem witness_RunAdvancesPcByFourEach : addMachine.mem.wf = true ∧ ∃ t, RunsToCompletion 1 addMachine t :=
  ⟨by decide, _, rfl, rfl⟩
theorem witness_LatchesCarryNothingIntoARun :
    AgreeButLatches addMachine (addMachine.setLatches { Latches.initial with ir := 1, mem := 7 }) ∧
    addMachine.stage = .fetch := ⟨⟨rfl, rfl, rfl, rfl, rfl, rfl⟩, rfl⟩
theorem witness_StrictTableRunsAreDefaultRuns : ∃ t, executeInstruction strictFunctTable addMachine = .done t := ⟨_, rfl⟩
theorem witness_HostWritesEndWhenExecutionBegins :
    ((hostCall functTable .executeStage addMachine).begun = true ∧
      (hostCall functTable .executeStage addMachine).status = .running) ∧
    addMachine.status = .running ∧ addMachine.stage = .fetch := by decide
theorem witness_HostWritesEndWhenExecutionBegins_run : ∃ s, hostCalls functTable
    [.loadWords 0 [0x01294820], .executeInstruction] State.reset = .ok s ∧ s.begun = true ∧ s.status = .running :=
  ⟨_, rfl, rfl, rfl⟩
theorem witness_RunOutcomeIsSettled :
    (∃ u, runOutcome (hostCalls functTable [.loadWords 0 [0x01294820], .executeInstruction] State.reset) = .next u) ∧
    runOutcome (hostCalls functTable [.executeInstruction] State.reset) = .fault (.unsupportedFunct 0 .decode 0) ∧
    runOutcome (hostCalls functTable [.loadWords 0 [0x01294820], .executeStage, .presetPc 8] State.reset) =
      .refused .hostWriteAfterBegin := ⟨⟨_, rfl⟩, rfl, rfl⟩
/-- For `PresetsSetOneRegister` and `BulkLoadOutOfBoundsHalts`. -/
theorem witness_BeforeExecution : State.reset.status = .running ∧ State.reset.begun = false ∧
    (4088 : Word).toNat + 4 * [(1 : InstrWord), 2].length ≤ State.reset.mem.capacity ∧
    (4095 : Word).toNat + [(1 : Byte)].length ≤ State.reset.mem.capacity ∧
    State.reset.mem.capacity ≤ (4093 : Word).toNat + 3 ∧ State.reset.mem.capacity ≤ (4096 : Word).toNat ∧
    (State.reset.mem.loadWords (4089 : Word).toNat [1, 2]).2 = some 4093 ∧
    (State.reset.mem.loadBytes (4095 : Word).toNat [1, 2]).2 = some 4096 := by decide
theorem witness_GetRegisterAnswersByNameAndIndex : (defaultNames "p").wellFormed = true ∧
    ("$ra", (31 : RegIdx)) ∈ (defaultNames "p").gpr ∧ "$nosuch" ≠ (defaultNames "p").pc ∧
    "$nosuch" ∉ (defaultNames "p").gpr.map Prod.fst := by decide
theorem witness_AssemblerReadsExactlyWellFormedLines :
    assemble (defaultNames "p") ⟨"add", "$t1", "$t1", "$t1"⟩ = some (.add 9 9 9 0) ∧
    lookupMnemonic "sltu" = some .sltu ∧ (defaultNames "p").wellFormed = true ∧ ("$t1", 9) ∈ (defaultNames "p").gpr ∧
    "$" ++ toString 31 ∉ (defaultNames "p").gpr.map Prod.fst ∧
    "$32" ∉ (defaultNames "p").gpr.map Prod.fst ∧ ∀ n, n < 32 → "$32" ≠ "$" ++ toString n := by decide

end Sys2Proof.Tests
end

section
/-! PROOFS. The family `10_state.md`: the register file (R21) and the stage register (R30). -/

namespace Sys2Proof.Machine

/-! ## The stage register (R30) -/

@[simp] theorem Stage.next_fetch : Stage.next .fetch = .decode := rfl
@[simp] theorem Stage.next_decode : Stage.next .decode = .execute := rfl
@[simp] theorem Stage.next_execute : Stage.next .execute = .memoryAccess := rfl
@[simp] theorem Stage.next_memoryAccess : Stage.next .memoryAccess = .writeBack := rfl
@[simp] theorem Stage.next_writeBack : Stage.next .writeBack = .fetch := rfl

@[simp] theorem State.construct_stage (capacity : Nat) : (State.construct capacity).stage = .fetch := rfl

/-! ## The obligations -/

/-- Settles O9: the register file's own laws hold at every index, and index 0 is one of them. -/
theorem registerZeroIsOrdinary : Obligations.RegisterZeroIsOrdinary := by
  intro s v
  refine ⟨s.readReg_writeReg_same 0 v, fun i => ⟨s.readReg_writeReg_same i v, ?_, ?_, ?_⟩⟩
  · exact fun _ hne => s.readReg_writeReg_ne v hne
  · exact s.writeReg_pc i v
  · exact s.writeReg_mem i v

/-- Settles O26: the successor of each stage, and the stage construction leaves the machine at. -/
theorem stageSuccessorIsCyclic : Obligations.StageSuccessorIsCyclic :=
  ⟨Stage.next_fetch, Stage.next_decode, Stage.next_execute, Stage.next_memoryAccess, Stage.next_writeBack,
    State.construct_stage⟩

end Sys2Proof.Machine
end

section
/-! PROOFS. The family `30_encoding.md`: the sign-extended immediate (R75) and the fields of a word (R71). -/

namespace Sys2Proof

/-- A bit string's value from those of its two halves: the left one stands above the `n` bits of the right one. -/
theorem toNat_append_eq_mul_add {m n : Nat} (x : BitVec m) (y : BitVec n) :
    (x ++ y).toNat = x.toNat * 2 ^ n + y.toNat := by
  rw [BitVec.toNat_append, ← Nat.shiftLeft_add_eq_or_of_lt y.isLt, Nat.shiftLeft_eq]

/-! ## The fields side by side (R71) -/

/-- The four ranges 31:26, 25:21, 20:16 and 15:0 adjoin, from bit 31 down to bit 0. -/
theorem append_fields (w : InstrWord) : opcodeField w ++ rsField w ++ rtField w ++ immField w = w := by
  have hrs : opcodeField w ++ rsField w = w.extractLsb' 21 11 :=
    BitVec.extractLsb'_append_extractLsb'_eq_extractLsb' rfl
  have hrt : w.extractLsb' 21 11 ++ rtField w = w.extractLsb' 16 16 :=
    BitVec.extractLsb'_append_extractLsb'_eq_extractLsb' rfl
  have himm : w.extractLsb' 16 16 ++ immField w = w.extractLsb' 0 32 :=
    BitVec.extractLsb'_append_extractLsb'_eq_extractLsb' rfl
  rw [hrs, hrt, himm, BitVec.extractLsb'_eq_self]

theorem toNat_immField (w : InstrWord) :
    (immField w).toNat = (rdField w).toNat * 2 ^ 11 + (shamtField w).toNat * 2 ^ 6 + (functField w).toNat := by
  calc (immField w).toNat
      = (rdField w ++ shamtField w ++ functField w).toNat := congrArg BitVec.toNat (immField_eq w)
    _ = ((rdField w).toNat * 2 ^ 5 + (shamtField w).toNat) * 2 ^ 6 + (functField w).toNat := by
        rw [toNat_append_eq_mul_add, toNat_append_eq_mul_add]
    _ = _ := by ring

theorem toNat_eq_fields (w : InstrWord) :
    w.toNat = (opcodeField w).toNat * 2 ^ 26 + (rsField w).toNat * 2 ^ 21 + (rtField w).toNat * 2 ^ 16 +
      (immField w).toNat := by
  calc w.toNat
      = (opcodeField w ++ rsField w ++ rtField w ++ immField w).toNat := congrArg BitVec.toNat (append_fields w).symm
    _ = (((opcodeField w).toNat * 2 ^ 5 + (rsField w).toNat) * 2 ^ 5 + (rtField w).toNat) * 2 ^ 16 +
          (immField w).toNat := by
        rw [toNat_append_eq_mul_add, toNat_append_eq_mul_add, toNat_append_eq_mul_add]
    _ = _ := by ring

/-- Settles O17: the word is its upper three fields above its immediate, and the immediate is its lower three. -/
theorem wordIsItsFields : Obligations.WordIsItsFields := by
  intro w
  have himm := toNat_immField w
  refine ⟨?_, himm⟩
  rw [toNat_eq_fields w, himm]
  ring

/-! ## The sign-extended immediate (R75) -/

namespace Machine

variable {imm : BitVec 16}

theorem signExtendImm_of_bit15_clear (h : imm.getLsbD 15 = false) :
    signExtendImm imm = (0 : BitVec 48) ++ imm :=
  if_neg (Bool.eq_false_iff.mp h)

theorem signExtendImm_of_bit15_set (h : imm.getLsbD 15 = true) :
    signExtendImm imm = BitVec.allOnes 48 ++ imm :=
  if_pos h

theorem toNat_signExtendImm_of_bit15_clear (h : imm.getLsbD 15 = false) :
    (signExtendImm imm).toNat = imm.toNat := by
  calc (signExtendImm imm).toNat
      = ((0 : BitVec 48) ++ imm).toNat := congrArg BitVec.toNat (signExtendImm_of_bit15_clear h)
    _ = (0 : BitVec 48).toNat * 2 ^ 16 + imm.toNat := toNat_append_eq_mul_add _ _
    _ = imm.toNat := by simp

/-- The ones above are -1 as a two's-complement number, and they stand above 16 bits. -/
theorem toInt_signExtendImm_of_bit15_set (h : imm.getLsbD 15 = true) :
    (signExtendImm imm).toInt = (imm.toNat : Int) - 0x10000 := by
  have hones : (BitVec.allOnes 48).toInt = -1 := by decide
  calc (signExtendImm imm).toInt
      = (BitVec.allOnes 48 ++ imm).toInt := congrArg BitVec.toInt (signExtendImm_of_bit15_set h)
    _ = 2 ^ 16 * (BitVec.allOnes 48).toInt + imm.toNat := BitVec.toInt_append
    _ = (imm.toNat : Int) - 0x10000 := by rw [hones]; ring

theorem getLsbD_signExtendImm_of_bit15_set (h : imm.getLsbD 15 = true) {k : Nat} (h16 : 16 ≤ k) (h64 : k < 64) :
    (signExtendImm imm).getLsbD k = true := by
  rw [getLsbD_signExtendImm, if_neg (by omega), h, Bool.and_true]
  exact decide_eq_true h64

theorem extractLsb'_signExtendImm (imm : BitVec 16) : (signExtendImm imm).extractLsb' 0 16 = imm := by
  ext i hi
  simp [getLsbD_signExtendImm, hi]

/-- Settles O16: by cases on bit 15, with zeros or ones above the immediate. -/
theorem immediateIsSignExtended : Obligations.ImmediateIsSignExtended := by
  intro imm
  refine ⟨toNat_signExtendImm_of_bit15_clear, fun h => ⟨fun k h16 h64 => ?_, ?_⟩, extractLsb'_signExtendImm imm⟩
  · exact getLsbD_signExtendImm_of_bit15_set h h16 h64
  · exact toInt_signExtendImm_of_bit15_set h

end Machine

end Sys2Proof
end

section
/-! PROOFS. The family `41_alu.md`: addition and subtraction (R122, R123). -/

namespace Sys2Proof.Machine

/-! ## Wraparound arithmetic (R122, R123) -/

theorem toNat_evalAlu_add (a b : Word) : (evalAlu .add a b).toNat = (a.toNat + b.toNat) % 2 ^ 64 :=
  BitVec.toNat_add a b

/-- On natural numbers a `BitVec` difference adds the complement `2 ^ 64 - b`, which is `-b` once the modulus is dropped. -/
theorem toNat_evalAlu_sub (a b : Word) :
    ((evalAlu .sub a b).toNat : Int) = (a.toNat - b.toNat : Int) % 2 ^ 64 := by
  have hcomplement : ((2 ^ 64 - b.toNat + a.toNat : Nat) : Int) = (a.toNat - b.toNat : Int) + 2 ^ 64 := by
    have := b.isLt
    omega
  calc ((evalAlu .sub a b).toNat : Int)
      = ((2 ^ 64 - b.toNat + a.toNat : Nat) : Int) % 2 ^ 64 := congrArg Nat.cast (BitVec.toNat_sub a b)
    _ = ((a.toNat - b.toNat : Int) + 2 ^ 64) % 2 ^ 64 := by rw [hcomplement]
    _ = (a.toNat - b.toNat : Int) % 2 ^ 64 := Int.add_emod_right ..

/-! ## The obligation -/

/-- Settles O18: the funct row is that of the instruction `add`, and both operations wrap modulo `2 ^ 64`. -/
theorem aluAddAndSubWrap : Obligations.AluAddAndSubWrap :=
  ⟨(Laws.FunctRow.add 0 0 0 0).left, fun a b => ⟨toNat_evalAlu_add a b, toNat_evalAlu_sub a b⟩⟩

end Sys2Proof.Machine
end

section
/-! PROOFS. The encoding (30_encoding.md): the decoder and the encoder are inverse to each other (R71, R77 to R83). -/

namespace Sys2Proof

/-! ## The funct table and the instruction of a row (R78) -/

/-- The default table has the six rows of R78 and no other. -/
theorem lookupFunct_functTable_eq_some (f : BitVec 6) (op : AluOp) : lookupFunct functTable f = some op ↔
    (f = 0b100000 ∧ op = .add) ∨ (f = 0b100010 ∧ op = .sub) ∨ (f = 0b100100 ∧ op = .and) ∨
    (f = 0b100101 ∧ op = .or) ∨ (f = 0b101010 ∧ op = .slt) ∨ (f = 0b101011 ∧ op = .sltu) := by
  constructor
  · intro h
    rw [lookupFunct_functTable] at h
    split_ifs at h <;> simp_all
  · rintro (⟨rfl, rfl⟩ | ⟨rfl, rfl⟩ | ⟨rfl, rfl⟩ | ⟨rfl, rfl⟩ | ⟨rfl, rfl⟩ | ⟨rfl, rfl⟩) <;> rfl

/-- The funct code of every instruction is a row of the default table, and row and fields give the instruction back. -/
theorem functRow (i : Instr) : Laws.FunctRow.Statement i := by
  cases i with
  | add rd rs rt shamt => exact Laws.FunctRow.add rd rs rt shamt
  | sub rd rs rt shamt => exact Laws.FunctRow.sub rd rs rt shamt
  | and rd rs rt shamt => exact Laws.FunctRow.and rd rs rt shamt
  | or rd rs rt shamt => exact Laws.FunctRow.or rd rs rt shamt
  | slt rd rs rt shamt => exact Laws.FunctRow.slt rd rs rt shamt
  | sltu rd rs rt shamt => exact Laws.FunctRow.sltu rd rs rt shamt

/-- No two rows of the default table name one operation, so the operation determines the funct code. -/
theorem eq_funct_of_lookup {f : BitVec 6} {i : Instr} (h : lookupFunct functTable f = some i.aluOp) : f = i.funct := by
  rw [lookupFunct_functTable_eq_some] at h
  cases i <;> simpa [Instr.aluOp, Instr.funct] using h

/-! ## Words (R77 to R83) -/

theorem decodeWord_encode (i : Instr) : decodeWord (encode i) = .ok i := by
  obtain ⟨hrow, hback⟩ := functRow i
  simp [decodeWord, encode, hrow, hback]

/-- A word that decodes is the word of its instruction: opcode 0, the fields, and the funct code of the operation. -/
theorem encode_of_decodeWord {w : InstrWord} {i : Instr} (h : decodeWord w = .ok i) : encode i = w := by
  obtain ⟨hop, hrow, hrd, hrs, hrt, hshamt⟩ := decodeWord_ok h
  rw [encode, hrd, hrs, hrt, hshamt, ← eq_funct_of_lookup hrow, rTypeWord_fields hop]

/-! ## Bytes (R53, R70) -/

/-- The decoder's answer on the bytes of a word: the word's own, and the bytes after it. -/
theorem decode_bytesOfWord_append {w : InstrWord} {i : Instr} (h : decodeWord w = .ok i) (rest : List Byte) :
    decode (bytesOfWord w ++ rest) = .ok (i, rest) := by
  simp [bytesOfWord, decode, h]

/-- Bytes that decode begin with the four bytes of a word that decodes. -/
theorem decode_eq_ok {bs rest : List Byte} {i : Instr} (h : decode bs = .ok (i, rest)) :
    ∃ w, bs = bytesOfWord w ++ rest ∧ decodeWord w = .ok i := by
  match bs with
  | b0 :: b1 :: b2 :: b3 :: tail =>
    cases hw : decodeWord (wordOfBytes b0 b1 b2 b3) with
    | error e => simp [decode, hw] at h
    | ok j =>
      simp only [decode, hw, Except.ok.injEq, Prod.mk.injEq] at h
      obtain ⟨rfl, rfl⟩ := h
      exact ⟨wordOfBytes b0 b1 b2 b3, by simp, hw⟩
  | [] => simp [decode] at h
  | [_] => simp [decode] at h
  | [_, _] => simp [decode] at h
  | [_, _, _] => simp [decode] at h

theorem Instr.wellFormed_eq_true (i : Instr) : i.wellFormed = true := by
  cases i <;> rfl

/-! ## The obligations -/

/-- Settles O35: the fields of an assembled word are those it was assembled from, and its funct code is a row. -/
theorem decodeOfEncodeIsTheInstruction : Obligations.DecodeOfEncodeIsTheInstruction :=
  fun i rest => ⟨i.wellFormed_eq_true, decode_bytesOfWord_append (decodeWord_encode i) rest⟩

/-- Settles O36: the bytes are those of a word that decodes, and such a word is the encoding. -/
theorem decodedBytesAreTheEncoding : Obligations.DecodedBytesAreTheEncoding := by
  intro bs rest i h
  obtain ⟨w, rfl, hw⟩ := decode_eq_ok h
  rw [encodeBytes, encode_of_decodeWord hw]

/-- Settles O37: the decoder's three answers, by opcode and then by the funct table's row. -/
theorem everyWordDecodesOrIsRejected : Obligations.EveryWordDecodesOrIsRejected := by
  refine fun w => ⟨decodeWord_opcode, decodeWord_funct, fun hop op hrow => ?_⟩
  obtain ⟨i, hi, hop', -⟩ := decodeWord_row hop hrow
  exact ⟨i, hi, hop', encode_of_decodeWord hi⟩

/-- Settles O38: each worked example is the bytes of its instruction. -/
theorem workedExampleWordsDecode : Obligations.WorkedExampleWordsDecode := by
  have example_decodes (i : Instr) : decode (encodeBytes i) = .ok (i, []) := by
    simpa using (decodeOfEncodeIsTheInstruction i []).right
  exact ⟨example_decodes (.add 9 9 9 0), example_decodes (.sub 10 8 9 0), example_decodes (.and 10 8 9 0),
    example_decodes (.or 10 8 9 0), example_decodes (.slt 10 8 9 0), example_decodes (.sltu 10 8 9 0),
    example_decodes (.add 9 9 9 31)⟩

/-- Settles O22: the default table row by row. -/
theorem defaultFunctTableRows : Obligations.DefaultFunctTableRows := lookupFunct_functTable_eq_some

end Sys2Proof
end

section
/-! PROOFS. The stage machine (44_orchestrator.md): each stage's work, one stage call, and the stages of one instruction run to
their end (R162 to R173). -/

namespace Sys2Proof.Machine

open Config (FunctTable)

/-! ## The stages of one instruction -/

theorem Stage.remaining_of_ne_writeBack {st : Stage} (h : st ≠ .writeBack) : st.remaining = st.next.remaining + 1 := by
  cases st <;> simp [Stage.remaining] at h ⊢

/-- The stages that remain of an instruction, run to their end: they complete at Fetch with `pc` advanced once, they raise a
fault before any register is written, or MemoryAccess refuses (R167, R170, R207). -/
theorem runStages_remaining_cases (t : FunctTable) {n : Nat} {s : State} (hn : s.stage.remaining = n) :
    (∃ s', runStages t n s = .done s' ∧ s'.stage = .fetch ∧ s'.pc = s.pc + 4 ∧ s'.mem = s.mem ∧ s'.begun = s.begun) ∨
    (∃ f s', runStages t n s = .raised f s' ∧ s'.regs = s.regs ∧ s'.pc = s.pc ∧ s'.mem = s.mem ∧
      s'.begun = s.begun ∧ (s'.stage = .fetch ∨ s'.stage = .decode) ∧ s'.status = .halted f) ∨
    runStages t n s = .refused .memoryAccessEnabled := by
  induction n generalizing s with
  | zero => revert hn; cases s.stage <;> simp [Stage.remaining]
  | succ n ih =>
    simp only [runStages]
    obtain ⟨u, hu, hstage, hmem, -, hbegun, hbefore, hlast⟩ | ⟨f, u, hu, hregs, hpc, hmem, hstage, hbegun, hhalt, hor⟩ |
      ⟨hu, -⟩ := runStage_cases t s <;> rw [hu]
    · rw [Work.andThen_done]
      by_cases hwb : s.stage = .writeBack
      · have hzero : n = 0 := by simpa [hwb, Stage.remaining] using hn.symm
        subst hzero
        exact .inl ⟨u, rfl, by rw [hstage, hwb]; rfl, hlast hwb, hmem, hbegun⟩
      · obtain ⟨hregs, hpc⟩ := hbefore hwb
        have hremaining : u.stage.remaining = n := by
          rw [Stage.remaining_of_ne_writeBack hwb, ← hstage] at hn
          exact Nat.succ_injective hn
        rw [← hregs, ← hpc, ← hmem, ← hbegun]
        exact ih hremaining
    · exact .inr (.inl ⟨f, u, rfl, hregs, hpc, hmem, hbegun, hstage ▸ hor, hhalt⟩)
    · exact .inr (.inr rfl)

/-- An Execute-instruction() call, in whatever stage it is made: it is refused, or the machine was running and the call ends
as the stages that remain do (R170, R171, R173). -/
theorem executeInstruction_cases (t : FunctTable) (s : State) :
    (∃ s', executeInstruction t s = .done s' ∧ s.status = .running ∧ s'.stage = .fetch ∧ s'.pc = s.pc + 4 ∧
      s'.mem = s.mem ∧ s'.begun = true) ∨
    (∃ f s', executeInstruction t s = .raised f s' ∧ s'.regs = s.regs ∧ s'.pc = s.pc ∧ s'.mem = s.mem ∧
      s'.begun = true ∧ (s'.stage = .fetch ∨ s'.stage = .decode) ∧ s'.status = .halted f) ∨
    ∃ r, executeInstruction t s = .refused r := by
  obtain ⟨hrun, -⟩ | ⟨f, -, h⟩ := whenRunning_cases s (runInstruction t)
  · rw [executeInstruction_running t hrun]
    obtain ⟨s', h, hs'⟩ | h | h := runStages_remaining_cases t (s := s.markBegun) rfl
    · exact .inl ⟨s', h, hrun, hs'⟩
    · exact .inr (.inl h)
    · exact .inr (.inr ⟨_, h⟩)
  · exact .inr (.inr ⟨_, h⟩)

/-- An Execute-stage() call is refused, or it is the current stage on a running machine with the call marked (R168, R173). -/
theorem executeStage_cases (t : FunctTable) (s : State) :
    (s.status = .running ∧ executeStage t s = runStage t s.markBegun) ∨
    (∃ f, s.status = .halted f ∧ executeStage t s = .refused .machineHalted) :=
  whenRunning_cases s (runStage t)

theorem executeStage_running (t : FunctTable) {s : State} (h : s.status = .running) :
    executeStage t s = runStage t s.markBegun := by
  simp [executeStage, whenRunning, h]

theorem executeStage_halted (t : FunctTable) {s : State} {f : Fault} (h : s.status = .halted f) :
    executeStage t s = .refused .machineHalted := by
  simp [executeStage, whenRunning, h]

theorem executeInstruction_halted (t : FunctTable) {s : State} {f : Fault} (h : s.status = .halted f) :
    executeInstruction t s = .refused .machineHalted := by
  simp [executeInstruction, whenRunning, h]

/-! ## One call and several (R168 to R171) -/

/-- Stage calls one after another, in the order of the first calls and the rest. -/
theorem executeStages_add (t : FunctTable) (m n : Nat) (s : State) :
    executeStages t (m + n) s = (executeStages t m s).andThen (executeStages t n) := by
  induction m generalizing s with
  | zero => simp [executeStages]
  | succ m ih =>
    have hsplit : executeStages t (m + n) = fun u => (executeStages t m u).andThen (executeStages t n) := funext ih
    rw [Nat.succ_add, executeStages, executeStages, hsplit, Work.andThen_assoc]

/-- From any stage, Execute-instruction() is as many stage calls as stages remain (R170, R171). -/
theorem executeInstruction_eq_executeStages (t : FunctTable) (s : State) :
    executeInstruction t s = executeStages t s.stage.remaining s := by
  obtain ⟨n, hn⟩ : ∃ n, s.stage.remaining = n + 1 := by cases s.stage <;> exact ⟨_, rfl⟩
  cases hstatus : s.status with
  | running =>
    rw [executeInstruction_running t hstatus, hn, executeStages, executeStage_running t hstatus, runStages]
    obtain ⟨u, hu, -, -, hstatus', hbegun, -⟩ | ⟨f, u, hu, -⟩ | ⟨hu, -⟩ := runStage_cases t s.markBegun <;> rw [hu]
    · exact (executeStages_begun t n (hstatus'.trans hstatus) hbegun).symm
    · rfl
    · rfl
  | halted f =>
    rw [executeInstruction_halted t hstatus, hn, executeStages, executeStage_halted t hstatus]
    rfl

/-- A completed stage call moves the machine to the next stage (R167). -/
theorem executeStage_stage {t : FunctTable} {s s' : State} (h : executeStage t s = .done s') :
    s'.stage = s.stage.next := by
  obtain ⟨-, he⟩ | ⟨f, -, he⟩ := executeStage_cases t s <;> rw [he] at h
  · obtain ⟨u, hu, hstage, -⟩ | ⟨f, u, hu, -⟩ | ⟨hu, -⟩ := runStage_cases t s.markBegun <;> rw [hu] at h <;> cases h
    exact hstage
  · cases h

theorem executeStages_stage {t : FunctTable} {n : Nat} {s s' : State} (h : executeStages t n s = .done s') :
    s'.stage = Stage.next^[n] s.stage := by
  induction n generalizing s with
  | zero => cases h; rfl
  | succ n ih =>
    rw [executeStages] at h
    cases hs : executeStage t s with
    | done u =>
      rw [hs] at h
      rw [ih h, executeStage_stage hs, Function.iterate_succ_apply]
    | raised f u => rw [hs] at h; cases h
    | refused r => rw [hs] at h; cases h

/-! ## The obligations on one stage -/

/-- Settles O27: the latches Decode leaves when it completes, of the three ways it can end. -/
theorem decodeLatchesEveryField : Obligations.DecodeLatchesEveryField := by
  intro t s s' h
  obtain ⟨-, he⟩ | ⟨-, -, he⟩ | ⟨op, hop, hrow, he⟩ := decodeWork_cases t s <;> rw [he] at h <;> cases h
  have hctrl : controlFor (opcodeField s.latches.ir) = some rTypeBundle := if_pos hop
  exact ⟨rfl, rfl, rfl, rfl, rfl, rfl, rfl, rfl, rfl, hctrl, rfl, rfl, hrow, rfl, rfl, rfl, rfl⟩

/-- Settles O28: the second operand is the one `aluSrc` selects. -/
theorem executeInvokesTheAlu : Obligations.ExecuteInvokesTheAlu := by
  refine fun s => ⟨_, rfl, fun hsrc => ?_, fun hsrc => ?_, rfl⟩
  · simp [Latches.secondOperand, hsrc]
  · simp [Latches.secondOperand, hsrc]

/-- Settles O29: the one check of MemoryAccess, on both enables. -/
theorem memoryAccessIsANoOp : Obligations.MemoryAccessIsANoOp := by
  refine fun s => ⟨fun hread hwrite => ?_, fun henabled => if_pos henabled⟩
  simp [memoryAccessWork, hread, hwrite]

/-- Settles O30: what WriteBack can do, with the register file's laws for the destination `regDst` selects. -/
theorem writeBackCommitsAndAdvances : Obligations.WriteBackCommitsAndAdvances := by
  intro s
  obtain ⟨s', h, hpc, hmem, hstage, hstatus, hbegun, hlatches, henabled, hdisabled⟩ := writeBackWork_cases s
  have hwb : s'.latches.wb = s.latches.writeBackValue := by rw [hlatches]
  have written (r : RegIdx) (hdst : s.latches.destination = r) (hwrite : s.latches.ctrl.regWrite = .enabled) :
      s'.readReg r = s'.latches.wb ∧ ∀ q, q ≠ r → s'.readReg q = s.readReg q := by
    have hread := readReg_congr (henabled hwrite)
    rw [hdst] at hread
    refine ⟨?_, fun q hq => ?_⟩
    · rw [hread, State.readReg_writeReg_same, hwb]
    · rw [hread, State.readReg_writeReg_ne _ _ hq]
  refine ⟨s', h, fun hsrc => ?_, fun hsrc => ?_, fun hwrite hdst => ?_, fun hwrite hdst => ?_, hdisabled, hpc, hmem,
    hstage, hstatus, hbegun, by rw [hlatches]⟩
  · simp [hwb, Latches.writeBackValue, hsrc]
  · simp [hwb, Latches.writeBackValue, hsrc]
  · exact written _ (by simp [Latches.destination, hdst]) hwrite
  · exact written _ (by simp [Latches.destination, hdst]) hwrite

/-! ## The obligations on calls -/

/-- Settles O31: a stage call is `runStage` on the marked machine, and an instruction call is the stage calls that remain. -/
theorem executeInstructionRunsACycleOrFinishesOne : Obligations.ExecuteInstructionRunsACycleOrFinishesOne := by
  intro t s
  have remaining (st : Stage) (hst : s.stage = st) : executeInstruction t s = executeStages t st.remaining s :=
    hst ▸ executeInstruction_eq_executeStages t s
  refine ⟨fun u => ⟨rfl, rfl, rfl, rfl, rfl⟩, fun u hrun h => ?_, fun f u hrun h => ?_, fun r hrun h => ?_,
    fun s' => executeStage_stage, remaining .fetch, remaining .decode, remaining .execute, remaining .memoryAccess,
    remaining .writeBack, fun s' h => ?_⟩
  · exact (executeStage_running t hrun).trans (runStage_done (s := s.markBegun) rfl h)
  · have hraised : runStage t s.markBegun = .raised f u := runStage_raised rfl h
    refine ⟨(executeStage_running t hrun).trans hraised, ?_⟩
    obtain ⟨v, hv, -⟩ | ⟨g, v, hv, -, -, -, hstage, -⟩ | ⟨hv, -⟩ := runStage_cases t s.markBegun <;>
      rw [hv] at hraised <;> cases hraised
    exact hstage
  · exact (executeStage_running t hrun).trans (runStage_refused (s := s.markBegun) rfl h)
  · obtain ⟨u, hu, -, hstage, -⟩ | ⟨f, u, hu, -⟩ | ⟨r, hu⟩ := executeInstruction_cases t s <;> rw [hu] at h <;> cases h
    exact hstage

/-- Settles O32: the five stage calls from Fetch are the first `n` and the `5 - n` that then remain. -/
theorem midCycleResumeLosesNothing : Obligations.MidCycleResumeLosesNothing := by
  intro t n s s' hfetch hlow hhigh h
  have hremaining : s'.stage.remaining = 5 - n := by
    rw [executeStages_stage h, hfetch]
    interval_cases n <;> rfl
  have hall : s.stage.remaining = n + (5 - n) := by
    rw [hfetch, Nat.add_sub_cancel' (by omega)]
    rfl
  rw [executeInstruction_eq_executeStages, executeInstruction_eq_executeStages, hremaining, hall, executeStages_add, h]
  rfl

/-- Settles O33: of the stages only WriteBack writes a register or `pc`, and Get-register reads nothing else. -/
theorem getRegisterSeesOnlyWriteBack : Obligations.GetRegisterSeesOnlyWriteBack := by
  intro t names key s
  simp only [hostCall, hostWork]
  obtain ⟨-, he⟩ | ⟨f, -, he⟩ := executeStage_cases t s <;> rw [he]
  · obtain ⟨u, hu, -, hmem, -, -, hbefore, -⟩ | ⟨f, u, hu, hregs, hpc, hmem, -⟩ | ⟨hu, -⟩ :=
      runStage_cases t s.markBegun <;> rw [hu]
    · refine ⟨fun hstage => ?_, hmem⟩
      obtain ⟨hregs, hpc⟩ := hbefore hstage
      exact getRegister_congr hregs hpc names key
    · exact ⟨fun _ => getRegister_congr hregs hpc names key, hmem⟩
    · exact ⟨fun _ => rfl, rfl⟩
  · exact ⟨fun _ => rfl, rfl⟩

/-- Settles O34: the fault of an instruction call, and that of a stage call, come before WriteBack. -/
theorem fatalErrorsArePrecise : Obligations.FatalErrorsArePrecise := by
  rintro t c s (rfl | rfl) <;> simp only [hostCall, hostWork]
  · obtain ⟨u, hu, -, -, -, hmem, -⟩ | ⟨g, u, hu, hregs, hpc, hmem, -, hstage, hhalt⟩ | ⟨r, hu⟩ :=
      executeInstruction_cases t s <;> rw [hu]
    · exact ⟨hmem, fun _ _ h => nomatch h⟩
    · refine ⟨hmem, ?_⟩
      rintro f s' ⟨⟩
      exact ⟨hregs, hpc, hstage, hhalt⟩
    · exact ⟨rfl, fun _ _ h => nomatch h⟩
  · obtain ⟨-, he⟩ | ⟨f, -, he⟩ := executeStage_cases t s <;> rw [he]
    · obtain ⟨u, hu, -, hmem, -⟩ | ⟨g, u, hu, hregs, hpc, hmem, hstage, -, hhalt, hor⟩ | ⟨hu, -⟩ :=
        runStage_cases t s.markBegun <;> rw [hu]
      · exact ⟨hmem, fun _ _ h => nomatch h⟩
      · refine ⟨hmem, ?_⟩
        rintro f s' ⟨⟩
        exact ⟨hregs, hpc, hstage ▸ hor, hhalt⟩
      · exact ⟨rfl, fun _ _ h => nomatch h⟩
    · exact ⟨rfl, fun _ _ h => nomatch h⟩

end Sys2Proof.Machine
end

section
/-! PROOFS. The step (44_orchestrator.md R170, R183): one whole instruction from Fetch, run by its meaning or stage by stage. -/

namespace Sys2Proof.Machine

open Config (FunctTable)

/-! ## A step from Fetch, by what stands at `pc` -/

section
variable {s : State} {w : InstrWord}

theorem step_halted {f : Fault} (h : s.status = .halted f) : step s = .refused .machineHalted := by
  simp [step, h]

theorem step_of_outOfBounds (hrun : s.status = .running) (hfetch : s.stage = .fetch)
    (hout : s.mem.capacity ≤ s.pc.toNat + 3) : step s = .fault (.outOfBounds s.pc.toNat (.stage .fetch)) := by
  have hw := Memory.loadWord_eq_none.mpr hout
  simp [step, hrun, hfetch, fetchInstr, hw]

theorem step_of_error {e : WordError} (hrun : s.status = .running) (hfetch : s.stage = .fetch)
    (hw : s.mem.loadWord s.pc.toNat = some w) (he : decodeWord w = .error e) : step s = .fault (wordFault s.pc e) := by
  simp [step, hrun, hfetch, fetchInstr, hw, he]

theorem step_of_instr {i : Instr} (hrun : s.status = .running) (hfetch : s.stage = .fetch)
    (hw : s.mem.loadWord s.pc.toNat = some w) (hi : decodeWord w = .ok i) :
    step s = exec i (s.markBegun.afterFetch w) := by
  simp [step, hrun, hfetch, fetchInstr, hw, hi]

end

/-! ## The stages of one instruction from Fetch -/

/-- The latches after Decode of the word `w`, of opcode 0, its operation `op` resolved (R163). -/
def Latches.afterDecode (l : Latches) (w : InstrWord) (op : AluOp) (a b : Word) : Latches :=
  { ({ l with ir := w } : Latches).withOperands a b with op := op }

/-- The machine after Decode of the word `w`, Execute the next stage (R163, R167). -/
def State.afterDecode (s : State) (w : InstrWord) (op : AluOp) : State :=
  (s.setLatches (s.latches.afterDecode w op (s.readReg (rsField w)) (s.readReg (rtField w)))).setStage .execute

/-- The whole instruction of the word `w`, of opcode 0, with the operation of its row (R140). -/
def wordEffect (w : InstrWord) (op : AluOp) (s : State) : State :=
  rTypeEffect op (functField w) (rdField w) (rsField w) (rtField w) (shamtField w) (s.afterFetch w)

/-- The latches when Execute and WriteBack have latched the result of the operation on the two registers (R164, R166). -/
def Latches.withResult (l : Latches) : Latches :=
  { l with alu := evalAlu l.op l.a l.b, wb := evalAlu l.op l.a l.b }

/-- Decode's latches with the result are those of the whole instruction (R140). -/
theorem Latches.withResult_afterDecode (l : Latches) {w : InstrWord} (hop : opcodeField w = 0) (op : AluOp)
    (a b : Word) : (l.afterDecode w op a b).withResult =
      ({ l with ir := w } : Latches).ofRType op (functField w) (rdField w) (rsField w) (rtField w) (shamtField w) a b := by
  simp only [Latches.afterDecode, Latches.withResult, Latches.withOperands, Latches.withFields, Latches.ofRType, hop,
    immField_eq]

/-- Execute, MemoryAccess and WriteBack under the bundle of opcode 0: the operands are the two registers, memory is not
accessed and the result goes to `rd` (R164 to R166). -/
theorem runStages_bundle (t : FunctTable) (s : State) {l : Latches} (hctrl : l.ctrl = rTypeBundle) :
    runStages t 3 ((s.setLatches l).setStage .execute) =
      .done (((s.setLatches l.withResult).writeReg l.rd l.withResult.wb).advancePc.setStage .fetch) := by
  have hexecute : runStage t ((s.setLatches l).setStage .execute) =
      .done ((s.setLatches { l with alu := evalAlu l.op l.a l.b }).setStage .memoryAccess) := by
    simp [runStage, stageWork, executeWork, Latches.secondOperand, hctrl, rTypeBundle]
    rfl
  have hmemory : runStage t ((s.setLatches { l with alu := evalAlu l.op l.a l.b }).setStage .memoryAccess) =
      .done ((s.setLatches { l with alu := evalAlu l.op l.a l.b }).setStage .writeBack) := by
    simp [runStage, stageWork, memoryAccessWork, hctrl, rTypeBundle]
    rfl
  have hwriteBack : runStage t ((s.setLatches { l with alu := evalAlu l.op l.a l.b }).setStage .writeBack) =
      .done (((s.setLatches l.withResult).writeReg l.rd l.withResult.wb).advancePc.setStage .fetch) := by
    simp [runStage, stageWork, writeBackWork, Latches.writeBackValue, Latches.destination, Latches.withResult, hctrl,
      rTypeBundle]
    rfl
  simp only [runStages, hexecute, hmemory, hwriteBack, Work.andThen_done]

theorem runStages_afterDecode (t : FunctTable) (s : State) {w : InstrWord} (op : AluOp) (hop : opcodeField w = 0) :
    runStages t 3 (s.afterDecode w op) = .done (wordEffect w op s) := by
  refine (runStages_bundle t s rfl).trans ?_
  rw [Latches.withResult_afterDecode _ hop]
  rfl

/-- The five stages from Fetch, for every funct table: one of the three fatal errors in the order of R208, or the whole
instruction. -/
theorem runStages_fetch_cases (t : FunctTable) {s : State} (hfetch : s.stage = .fetch) :
    (s.mem.capacity ≤ s.pc.toNat + 3 ∧
      ∃ u, runStages t 5 s = .raised (.outOfBounds s.pc.toNat (.stage .fetch)) u) ∨
    (∃ w, s.mem.loadWord s.pc.toNat = some w ∧ opcodeField w ≠ 0 ∧
      ∃ u, runStages t 5 s = .raised (.unsupportedOpcode (opcodeField w) .decode s.pc) u) ∨
    (∃ w, s.mem.loadWord s.pc.toNat = some w ∧ opcodeField w = 0 ∧ lookupFunct t (functField w) = none ∧
      ∃ u, runStages t 5 s = .raised (.unsupportedFunct (functField w) .decode s.pc) u) ∨
    (∃ w op, s.mem.loadWord s.pc.toNat = some w ∧ opcodeField w = 0 ∧ lookupFunct t (functField w) = some op ∧
      runStages t 5 s = .done (wordEffect w op s)) := by
  have hfive : runStages t 5 s = (runStage t s).andThen (runStages t 4) := rfl
  obtain ⟨w, hw, h⟩ | ⟨hw, h⟩ := fetchWork_cases s
  · have hfour : runStages t 5 s = (runStage t (s.afterFetch w)).andThen (runStages t 3) := by
      rw [hfive, runStage_done hfetch h]
      rfl
    refine .inr ?_
    obtain ⟨hop, h⟩ | ⟨hop, hrow, h⟩ | ⟨op, hop, hrow, h⟩ := decodeWork_cases t (s.afterFetch w)
    · exact .inl ⟨w, hw, hop, _, by rw [hfour, runStage_raised (s.afterFetch_stage w) h]; rfl⟩
    · exact .inr (.inl ⟨w, hw, hop, hrow, _, by rw [hfour, runStage_raised (s.afterFetch_stage w) h]; rfl⟩)
    · refine .inr (.inr ⟨w, op, hw, hop, hrow, ?_⟩)
      rw [hfour, runStage_done (s.afterFetch_stage w) h]
      exact runStages_afterDecode t s op hop
  · exact .inl ⟨Memory.loadWord_eq_none.mp hw, _, by rw [hfive, runStage_raised hfetch h]; rfl⟩

/-- The meaning of an instruction on the machine after Fetch of its word is the word's effect. -/
theorem exec_afterFetch {w : InstrWord} {i : Instr} (hi : decodeWord w = .ok i) (s : State) :
    exec i (s.afterFetch w) = .next (wordEffect w i.aluOp s) := by
  obtain ⟨-, hrow, hrd, hrs, hrt, hshamt⟩ := decodeWord_ok hi
  rw [exec_eq, wordEffect, eq_funct_of_lookup hrow, hrd, hrs, hrt, hshamt]

/-! ## The obligations -/

/-- Settles O40: from Fetch both machines stop at the same one of the four cases; in mid-cycle the step is the stage machine. -/
theorem stepIsExecuteInstruction : Obligations.StepIsExecuteInstruction := by
  intro s
  cases hstatus : s.status with
  | halted f => rw [step_halted hstatus, executeInstruction_halted functTable hstatus, Work.outcome_refused]
  | running =>
    by_cases hfetch : s.stage = .fetch
    · rw [executeInstruction_running functTable hstatus, hfetch]
      obtain ⟨hout, u, h⟩ | ⟨w, hw, hop, u, h⟩ | ⟨w, hw, hop, hrow, u, h⟩ | ⟨w, op, hw, hop, hrow, h⟩ :=
        runStages_fetch_cases functTable (s := s.markBegun) hfetch
      · rw [step_of_outOfBounds hstatus hfetch hout]
        exact congrArg Work.outcome h.symm
      · rw [step_of_error hstatus hfetch hw (decodeWord_opcode hop)]
        exact congrArg Work.outcome h.symm
      · rw [step_of_error hstatus hfetch hw (decodeWord_funct hop hrow)]
        exact congrArg Work.outcome h.symm
      · obtain ⟨i, hi, rfl, -⟩ := decodeWord_row hop hrow
        rw [step_of_instr hstatus hfetch hw hi, exec_afterFetch hi]
        exact congrArg Work.outcome h.symm
    · simp [step, hstatus, hfetch, executeInstruction, whenRunning, runInstruction]

/-- A step that answers a next state is a completed Execute-instruction() call. -/
theorem executeInstruction_of_step {s u : State} (h : step s = .next u) :
    executeInstruction functTable s = .done u := by
  rw [stepIsExecuteInstruction s] at h
  cases he : executeInstruction functTable s <;> rw [he] at h <;> cases h
  rfl

end Sys2Proof.Machine
end

section
/-! PROOFS. The machine invariant: construction meets it and every host call, hence every step, keeps it. -/

namespace Sys2Proof.Machine

open Config (FunctTable)

/-! ## What the invariant asks of a running and of a halted machine -/

theorem machineInv_of_running {t : FunctTable} {s : State} (hwf : s.mem.wf = true)
    (hbegun : s.begun = false → s.stage = .fetch) (hrun : s.status = .running) (hflight : InFlight t s) :
    MachineInv t s :=
  ⟨hwf, hbegun, fun _ => hflight, fun _ hhalt => absurd (hrun.symm.trans hhalt) nofun⟩

theorem machineInv_of_halted {t : FunctTable} {s : State} {f : Fault} (hwf : s.mem.wf = true)
    (hbegun : s.begun = false → s.stage = .fetch) (hhalt : s.status = .halted f) (hrecord : HaltRecord t s f) :
    MachineInv t s := by
  refine ⟨hwf, hbegun, fun hrun => absurd (hhalt.symm.trans hrun) nofun, fun g hg => ?_⟩
  obtain rfl : f = g := by simpa [hhalt] using hg
  exact hrecord

section
variable {t : FunctTable} {s : State}

/-- At Fetch no instruction is in flight. -/
theorem inFlight_fetch (h : s.stage = .fetch) : InFlight t s := by
  simp [InFlight, h]

theorem inFlight_decode (h : s.stage = .decode) : InFlight t s ↔ Fetched s := by
  simp [InFlight, h]

theorem inFlight_execute (h : s.stage = .execute) : InFlight t s ↔ Fetched s ∧ Decoded t s := by
  simp [InFlight, h]

theorem inFlight_memoryAccess (h : s.stage = .memoryAccess) :
    InFlight t s ↔ Fetched s ∧ Decoded t s ∧ Executed s := by
  simp [InFlight, h]

theorem inFlight_writeBack (h : s.stage = .writeBack) : InFlight t s ↔ Fetched s ∧ Decoded t s ∧ Executed s := by
  simp [InFlight, h]

end

/-- A running machine at Fetch meets the invariant when its memory does. -/
theorem machineInv_fetch {t : FunctTable} {s : State} (hwf : s.mem.wf = true) (hrun : s.status = .running)
    (hfetch : s.stage = .fetch) : MachineInv t s :=
  machineInv_of_running hwf (fun _ => hfetch) hrun (inFlight_fetch hfetch)

/-! ## One stage -/

/-- The work is not refused, it leaves the invariant however else it ends, and when it completes the machine still runs and
an Execute call has been made. -/
def Work.KeepsInv (t : FunctTable) : Work → Prop
  | .done s => MachineInv t s ∧ s.status = .running ∧ s.begun = true
  | .raised _ s => MachineInv t s
  | .refused _ => False

section
variable {t : FunctTable} {s : State} (hwf : s.mem.wf = true) (hrun : s.status = .running) (hbegun : s.begun = true)
include hwf hrun hbegun

theorem runStage_fetch_keepsInv (hst : s.stage = .fetch) : (runStage t s).KeepsInv t := by
  obtain ⟨w, hw, h⟩ | ⟨hw, h⟩ := fetchWork_cases s
  · rw [runStage_done hst h]
    exact ⟨machineInv_of_running hwf (by simp [hbegun]) hrun ((inFlight_decode rfl).mpr hw), hrun, hbegun⟩
  · rw [runStage_raised hst h]
    exact machineInv_of_halted hwf (fun _ => hst) rfl ⟨rfl, hst, rfl, Memory.loadWord_eq_none.mp hw⟩

theorem runStage_decode_keepsInv (hst : s.stage = .decode) (hfetched : Fetched s) : (runStage t s).KeepsInv t := by
  obtain ⟨hop, h⟩ | ⟨hop, hrow, h⟩ | ⟨op, hop, hrow, h⟩ := decodeWork_cases t s
  · rw [runStage_raised hst h]
    exact machineInv_of_halted hwf (by simp [hbegun]) rfl ⟨rfl, hst, rfl, hfetched, rfl, hop⟩
  · rw [runStage_raised hst h]
    exact machineInv_of_halted hwf (by simp [hbegun]) rfl ⟨rfl, hst, rfl, hfetched, hop, rfl, hrow⟩
  · rw [runStage_done hst h]
    refine ⟨machineInv_of_running hwf (by simp [hbegun]) hrun ((inFlight_execute rfl).mpr ⟨hfetched, ?_⟩), hrun, hbegun⟩
    exact ⟨rfl, hop, rfl, rfl, rfl, hrow⟩

theorem runStage_execute_keepsInv (hst : s.stage = .execute) (hfetched : Fetched s) (hdecoded : Decoded t s) :
    (runStage t s).KeepsInv t := by
  rw [runStage_done hst (rfl : executeWork s = _)]
  refine ⟨machineInv_of_running hwf (by simp [hbegun]) hrun ((inFlight_memoryAccess rfl).mpr ⟨hfetched, ?_, ?_⟩), hrun,
    hbegun⟩
  · obtain ⟨hfields, hrest⟩ := hdecoded
    exact ⟨congrArg (fun l : Latches => { l with alu := evalAlu s.latches.op s.latches.a s.latches.secondOperand }) hfields,
      hrest⟩
  · obtain ⟨-, -, hctrl, -⟩ := hdecoded
    have hsecond : s.latches.secondOperand = s.latches.b := by simp [Latches.secondOperand, hctrl, rTypeBundle]
    exact congrArg (evalAlu s.latches.op s.latches.a) hsecond

theorem runStage_memoryAccess_keepsInv (hst : s.stage = .memoryAccess) (hfetched : Fetched s) (hdecoded : Decoded t s)
    (hexecuted : Executed s) : (runStage t s).KeepsInv t := by
  obtain h | ⟨henabled, -⟩ := memoryAccessWork_cases s
  · rw [runStage_done hst h]
    exact ⟨machineInv_of_running hwf (by simp [hbegun]) hrun
      ((inFlight_writeBack rfl).mpr ⟨hfetched, hdecoded, hexecuted⟩), hrun, hbegun⟩
  · obtain ⟨-, -, hctrl, -⟩ := hdecoded
    simp [hctrl, rTypeBundle] at henabled

theorem runStage_writeBack_keepsInv (hst : s.stage = .writeBack) : (runStage t s).KeepsInv t := by
  obtain ⟨u, h, -, hmem, -, hstatus, hbegun', -⟩ := writeBackWork_cases s
  rw [runStage_done hst h]
  exact ⟨machineInv_fetch (hmem ▸ hwf) (hstatus.trans hrun) rfl, hstatus.trans hrun, hbegun'.trans hbegun⟩

end

/-- Every stage of a running machine on which an Execute call has been made keeps the invariant. -/
theorem runStage_keepsInv {t : FunctTable} {s : State} (hinv : MachineInv t s) (hrun : s.status = .running)
    (hbegun : s.begun = true) : (runStage t s).KeepsInv t := by
  obtain ⟨hwf, -, hflight, -⟩ := hinv
  replace hflight := hflight hrun
  cases hst : s.stage with
  | fetch => exact runStage_fetch_keepsInv hwf hrun hbegun hst
  | decode => exact runStage_decode_keepsInv hwf hrun hbegun hst ((inFlight_decode hst).mp hflight)
  | execute =>
    obtain ⟨hfetched, hdecoded⟩ := (inFlight_execute hst).mp hflight
    exact runStage_execute_keepsInv hwf hrun hbegun hst hfetched hdecoded
  | memoryAccess =>
    obtain ⟨hfetched, hdecoded, hexecuted⟩ := (inFlight_memoryAccess hst).mp hflight
    exact runStage_memoryAccess_keepsInv hwf hrun hbegun hst hfetched hdecoded hexecuted
  | writeBack => exact runStage_writeBack_keepsInv hwf hrun hbegun hst

/-! ## Calls -/

theorem runStages_keepsInv {t : FunctTable} (n : Nat) {s : State} (hinv : MachineInv t s) (hrun : s.status = .running)
    (hbegun : s.begun = true) : (runStages t n s).KeepsInv t := by
  induction n generalizing s with
  | zero => exact ⟨hinv, hrun, hbegun⟩
  | succ n ih =>
    have hstage := runStage_keepsInv hinv hrun hbegun
    rw [runStages]
    cases h : runStage t s with
    | done u =>
      rw [h] at hstage
      obtain ⟨hinv', hrun', hbegun'⟩ := hstage
      exact ih hinv' hrun' hbegun'
    | raised f u => rwa [h] at hstage
    | refused r => rwa [h] at hstage

/-- Marking an Execute call made keeps the invariant of a running machine; a halt record may rest on no call made. -/
theorem machineInv_markBegun {t : FunctTable} {s : State} (hinv : MachineInv t s) (hrun : s.status = .running) :
    MachineInv t s.markBegun := by
  obtain ⟨hwf, -, hflight, -⟩ := hinv
  exact machineInv_of_running hwf nofun hrun (hflight hrun)

/-- The stages of an Execute call on a running machine keep the invariant. -/
theorem runStages_markBegun_keepsInv {t : FunctTable} (n : Nat) {s : State} (hinv : MachineInv t s)
    (hrun : s.status = .running) : (runStages t n s.markBegun).KeepsInv t :=
  runStages_keepsInv n (machineInv_markBegun hinv hrun) hrun rfl

/-- Work that keeps the invariant leaves a machine that meets it. -/
theorem Work.KeepsInv.after {t : FunctTable} {w : Work} (h : w.KeepsInv t) (s : State) : MachineInv t (w.after s) := by
  cases w with
  | done u => exact h.left
  | raised f u => exact h
  | refused r => exact h.elim

/-- A bulk load before the first Execute call keeps the invariant, when what it leaves in memory is well-formed and the
address it names is out of bounds. -/
theorem machineInv_after_load {t : FunctTable} {s : State} (hinv : MachineInv t s) (load : Memory → Memory × Option Nat)
    (hwf : (load s.mem).1.wf = true) (hout : ∀ a, (load s.mem).2 = some a → (load s.mem).1.capacity ≤ a + 3) :
    MachineInv t ((whenLoading s fun u => loadWork u (load u.mem)).after s) := by
  obtain ⟨hrun, hbegun, h⟩ | ⟨r, h, -⟩ := whenLoading_cases s fun u => loadWork u (load u.mem)
  · obtain ⟨-, hinit, -, -⟩ := hinv
    rw [h]
    obtain ⟨-, h⟩ | ⟨a, ha, h⟩ := loadWork_cases s (load s.mem)
    · rw [h]
      exact machineInv_fetch hwf hrun (hinit hbegun)
    · rw [h]
      exact machineInv_of_halted hwf hinit rfl ⟨hbegun, hout a ha⟩
  · rw [h]
    exact hinv

/-- A preset before the first Execute call keeps the invariant, when it leaves memory, stage and run status. -/
theorem machineInv_after_preset {t : FunctTable} {s : State} (hinv : MachineInv t s) (preset : State → State)
    (hmem : (preset s).mem = s.mem) (hstage : (preset s).stage = s.stage) (hstatus : (preset s).status = s.status) :
    MachineInv t ((whenLoading s fun u => .done (preset u)).after s) := by
  obtain ⟨hrun, hbegun, h⟩ | ⟨r, h, -⟩ := whenLoading_cases s fun u => .done (preset u)
  · obtain ⟨hwf, hinit, -, -⟩ := hinv
    rw [h]
    exact machineInv_fetch (hmem ▸ hwf) (hstatus.trans hrun) (hstage.trans (hinit hbegun))
  · rw [h]
    exact hinv

/-! ## The obligations -/

/-- Settles O45: a constructed machine is running at Fetch, with no cell listed. -/
theorem constructionMeetsInv : Obligations.ConstructionMeetsInv := by
  have constructed (t : FunctTable) (capacity : Nat) (hcap : Config.capacityOk capacity = true) :
      MachineInv t (State.construct capacity) :=
    machineInv_fetch (by simp [State.construct, Memory.wf, cellsOk, hcap]) rfl rfl
  exact ⟨constructed, constructed functTable Config.memCapacity (by decide)⟩

/-- Settles O47: host writes come before the first Execute call, and Execute calls are stages of a marked machine. -/
theorem hostCallKeepsInv : Obligations.HostCallKeepsInv := by
  intro t c s hinv
  have hwf : s.mem.wf = true := hinv.left
  cases c with
  | loadWords base ws =>
    exact machineInv_after_load hinv (·.loadWords base.toNat ws) (Memory.loadWords_wf hwf _ _)
      fun a ha => (Memory.loadWords_capacity ..).trans_le (Memory.loadWords_fault ha)
  | loadBytes base bs =>
    exact machineInv_after_load hinv (·.loadBytes base.toNat bs) (Memory.loadBytes_wf hwf _ _)
      fun a ha => (Memory.loadBytes_capacity ..).trans_le ((Memory.loadBytes_fault ha).trans (Nat.le_add_right a 3))
  | presetReg i v => exact machineInv_after_preset hinv (·.writeReg i v) rfl rfl rfl
  | presetPc v => exact machineInv_after_preset hinv (·.setPc v) rfl rfl rfl
  | executeInstruction =>
    simp only [hostCall, hostWork]
    obtain ⟨hrun, -⟩ | ⟨f, -, h⟩ := whenRunning_cases s (runInstruction t)
    · rw [executeInstruction_running t hrun]
      exact (runStages_markBegun_keepsInv _ hinv hrun).after s
    · rw [executeInstruction, h]
      exact hinv
  | executeStage =>
    simp only [hostCall, hostWork]
    obtain ⟨hrun, h⟩ | ⟨f, -, h⟩ := executeStage_cases t s <;> rw [h]
    · exact (runStage_keepsInv (machineInv_markBegun hinv hrun) hrun rfl).after s
    · exact hinv
  | getRegister key => exact hinv

/-- Settles O46: a step that answers a next state is an Execute-instruction() call of the host. -/
theorem stepKeepsInv : Obligations.StepKeepsInv := by
  intro s u hinv h
  have hcall : hostCall functTable .executeInstruction s = u := by
    rw [hostCall, hostWork, executeInstruction_of_step h, Work.after_done]
  exact hcall ▸ hostCallKeepsInv functTable .executeInstruction s hinv

/-- Settles O50: under the invariant no stage of a running machine is refused. -/
theorem runningMachineIsNeverRefused : Obligations.RunningMachineIsNeverRefused := by
  intro s r hinv hrun h
  have hkeeps := runStages_markBegun_keepsInv s.stage.remaining hinv hrun
  rw [stepIsExecuteInstruction s, executeInstruction_running functTable hrun] at h
  cases hw : runStages functTable s.stage.remaining s.markBegun with
  | done u => rw [hw] at h; cases h
  | raised f u => rw [hw] at h; cases h
  | refused q => rwa [hw] at hkeeps

end Sys2Proof.Machine
end

section
/-! PROOFS. Memory (20_memory.md): words and bytes written and read back, bulk loads, and the canonical form (R50 to R59). -/

namespace Sys2Proof.Machine

/-! ## A word's four bytes (R54, R56) -/

/-- The byte at `a + k` of a word written at `a`. -/
theorem Memory.byteAt_storeWord_inside {m m' : Memory} {a k : Nat} {w : InstrWord} (hwf : m.wf = true)
    (h : m.storeWord a w = some m') (hk : k < 4) : m'.byteAt (a + k) = w.extractLsb' (24 - 8 * k) 8 := by
  obtain ⟨ha, rfl⟩ := Memory.storeWord_eq_some.mp h
  rw [Memory.byteAt_setBytes_inside hwf (bytesOfWord w) (by rw [length_bytesOfWord]; omega) k (by simpa using hk)]
  interval_cases k <;> rfl

theorem Memory.byteAt_storeWord_outside {m m' : Memory} {a c : Nat} {w : InstrWord} (h : m.storeWord a w = some m')
    (hc : c < a ∨ a + 4 ≤ c) : m'.byteAt c = m.byteAt c := by
  obtain ⟨-, rfl⟩ := Memory.storeWord_eq_some.mp h
  exact Memory.byteAt_setBytes_outside m a (bytesOfWord w) hc

theorem Memory.storeWord_inBounds (m : Memory) {a : Nat} (w : InstrWord) (ha : a + 3 < m.capacity) :
    ∃ m', m.storeWord a w = some m' :=
  ⟨_, Memory.storeWord_eq_some.mpr ⟨ha, rfl⟩⟩

/-- A word written is read back (S1). -/
theorem Memory.loadWord_storeWord {m m' : Memory} {a : Nat} {w : InstrWord} (hwf : m.wf = true)
    (h : m.storeWord a w = some m') : m'.loadWord a = some w := by
  have hbyte {k : Nat} (hk : k < 4) := Memory.byteAt_storeWord_inside hwf h hk
  have hbounds : a + 3 < m'.capacity := Memory.storeWord_capacity h ▸ (Memory.storeWord_eq_some.mp h).left
  refine Memory.loadWord_eq_some.mpr ⟨hbounds, ?_⟩
  rw [hbyte (k := 1) (by omega), hbyte (k := 2) (by omega), hbyte (k := 3) (by omega)]
  rw [show m'.byteAt a = w.extractLsb' 24 8 from hbyte (k := 0) (by omega)]
  exact (wordOfBytes_bytesOfWord w).symm

/-- A word is the same in two memories of one capacity whose bytes at its addresses agree. -/
theorem Memory.loadWord_congr {m n : Memory} {a : Nat} (hcap : m.capacity = n.capacity)
    (h : ∀ k, k < 4 → m.byteAt (a + k) = n.byteAt (a + k)) : m.loadWord a = n.loadWord a := by
  have h0 : m.byteAt a = n.byteAt a := h 0 (by omega)
  rw [Memory.loadWord, Memory.loadWord, Memory.wordInBounds, Memory.wordInBounds, hcap, h0, h 1 (by omega),
    h 2 (by omega), h 3 (by omega)]

/-! ## Loads of bytes (R58) -/

theorem Memory.byteAt_loadBytes_outside (m : Memory) (a : Nat) (bs : List Byte) {c : Nat}
    (hc : c < a ∨ a + bs.length ≤ c) : (m.loadBytes a bs).1.byteAt c = m.byteAt c := by
  induction bs generalizing m a with
  | nil => rfl
  | cons b bs ih =>
    rw [List.length_cons] at hc
    rw [Memory.loadBytes]
    cases hs : m.storeByte a b with
    | none => rfl
    | some m' =>
      obtain ⟨-, rfl⟩ := Memory.storeByte_eq_some.mp hs
      exact (ih (m.setByte a b) (a + 1) (by omega)).trans (Memory.byteAt_setByte_ne m b (by omega))

theorem Memory.byteAt_loadBytes_inside {m : Memory} (hwf : m.wf = true) {a : Nat} {bs : List Byte} {k : Nat}
    (hk : k < bs.length) (hc : a + k < m.capacity) : (m.loadBytes a bs).1.byteAt (a + k) = bs[k] := by
  induction bs generalizing m a k with
  | nil => cases hk
  | cons b bs ih =>
    have hs : m.storeByte a b = some (m.setByte a b) := Memory.storeByte_eq_some.mpr ⟨by omega, rfl⟩
    simp only [Memory.loadBytes, hs]
    cases k with
    | zero =>
      exact (Memory.byteAt_loadBytes_outside _ _ _ (by omega)).trans (Memory.byteAt_setByte_same hwf a b)
    | succ k =>
      have hrest := ih (Memory.storeByte_wf hwf hs) (a := a + 1) (k := k) (by simpa using hk) (by simp; omega)
      rw [Nat.add_assoc, Nat.add_comm 1 k] at hrest
      exact hrest

/-- A load of bytes that runs out of bounds names the first address out of bounds. -/
theorem Memory.loadBytes_outOfBounds {m : Memory} {a : Nat} {bs : List Byte} (hne : bs ≠ [])
    (h : m.capacity < a + bs.length) : (m.loadBytes a bs).2 = some (max a m.capacity) := by
  induction bs generalizing m a with
  | nil => exact absurd rfl hne
  | cons b bs ih =>
    rw [Memory.loadBytes]
    rw [List.length_cons] at h
    cases hs : m.storeByte a b with
    | none =>
      have hout := Memory.storeByte_eq_none.mp hs
      simpa using hout
    | some m' =>
      obtain ⟨hin, rfl⟩ := Memory.storeByte_eq_some.mp hs
      have hrest : bs ≠ [] := by
        rintro rfl
        rw [List.length_nil] at h
        omega
      have := ih (m := m.setByte a b) (a := a + 1) hrest (by simp; omega)
      rw [Memory.setByte_capacity, max_eq_right (by omega)] at this
      rw [max_eq_right (by omega)]
      exact this

/-! ## Loads of words (R58) -/

/-- A load of words: `n` of them are in bounds and stored in order, and either they are all, or word `n` is the first out
of bounds and the load names its address. Nothing is written outside the `n` words. -/
theorem Memory.loadWords_cases {m : Memory} (hwf : m.wf = true) (a : Nat) (ws : List InstrWord) :
    ∃ n, n ≤ ws.length ∧
      (∀ k (h : k < ws.length), k < n →
        a + 4 * k + 3 < m.capacity ∧ (m.loadWords a ws).1.loadWord (a + 4 * k) = some ws[k]) ∧
      (∀ c, c < a ∨ a + 4 * n ≤ c → (m.loadWords a ws).1.byteAt c = m.byteAt c) ∧
      (n = ws.length ∧ (m.loadWords a ws).2 = none ∨
        n < ws.length ∧ (m.loadWords a ws).2 = some (a + 4 * n) ∧ m.capacity ≤ a + 4 * n + 3) := by
  induction ws generalizing m a with
  | nil => exact ⟨0, le_rfl, nofun, fun _ _ => rfl, .inl ⟨rfl, rfl⟩⟩
  | cons w ws ih =>
    rw [Memory.loadWords]
    cases hs : m.storeWord a w with
    | none =>
      have hout := Memory.storeWord_eq_none.mp hs
      exact ⟨0, Nat.zero_le _, fun _ _ h => absurd h (Nat.not_lt_zero _), fun _ _ => rfl,
        .inr ⟨Nat.succ_pos _, rfl, hout⟩⟩
    | some m' =>
      have hcap := Memory.storeWord_capacity hs
      obtain ⟨hin, -⟩ := Memory.storeWord_eq_some.mp hs
      obtain ⟨n, hn, hread, hframe, hend⟩ := ih (Memory.storeWord_wf hwf hs) (a + 4)
      rw [hcap] at hread hend
      have hshift (k : Nat) : a + 4 + 4 * k = a + 4 * (k + 1) := by omega
      simp only [hshift] at hread hframe hend
      refine ⟨n + 1, Nat.succ_le_succ hn, fun k hk hkn => ?_, fun c hc => ?_, ?_⟩
      · cases k with
        | zero =>
          refine ⟨hin, ?_⟩
          rw [Memory.loadWord_congr (n := m') (Memory.loadWords_capacity ..) fun k hk => hframe _ (by omega)]
          exact Memory.loadWord_storeWord hwf hs
        | succ k => exact hread k (by simpa using hk) (Nat.succ_lt_succ_iff.mp hkn)
      · exact (hframe c (by omega)).trans (Memory.byteAt_storeWord_outside hs (by omega))
      · simpa using hend

/-! ## The canonical form (R50) -/

@[simp] theorem readCell_head (a : Nat) (b : Byte) (rest : List Host.Cell) : readCell a ((a, b) :: rest) = b :=
  if_pos rfl

theorem cellsOk_cons {low high a : Nat} {b : Byte} {rest : List Host.Cell} :
    cellsOk low high ((a, b) :: rest) = true ↔
      low ≤ a ∧ a < high ∧ b ≠ Memory.unlisted ∧ cellsOk (a + 1) high rest = true := by
  simp [cellsOk, and_assoc]

/-- The first cell of a canonical list stands at the lowest address that holds a listed byte. -/
theorem head_le_of_readCell_ne {low high a c : Nat} {b : Byte} {rest : List Host.Cell}
    (h : cellsOk low high ((a, b) :: rest) = true) (hne : readCell c ((a, b) :: rest) ≠ Memory.unlisted) : a ≤ c := by
  by_contra hlt
  refine hne (readCell_below (low := a) (high := high) ?_ (Nat.lt_of_not_le hlt))
  obtain ⟨-, hrest⟩ := cellsOk_cons.mp h
  exact cellsOk_cons.mpr ⟨le_rfl, hrest⟩

/-- Lists of cells in canonical form that read alike at every address are equal: their first cells stand at the same
address, the lowest that holds a listed byte, and the lists after them read alike. -/
theorem cells_ext {low high : Nat} {cs ds : List Host.Cell} (hc : cellsOk low high cs = true)
    (hd : cellsOk low high ds = true) (h : ∀ a, readCell a cs = readCell a ds) : cs = ds := by
  induction cs generalizing low ds with
  | nil =>
    cases ds with
    | nil => rfl
    | cons cell rest =>
      obtain ⟨a, b⟩ := cell
      obtain ⟨-, -, hb, -⟩ := cellsOk_cons.mp hd
      exact absurd ((readCell_head a b rest).symm.trans (h a).symm) hb
  | cons cell rest ih =>
    obtain ⟨a, b⟩ := cell
    obtain ⟨-, -, hb, hrest⟩ := cellsOk_cons.mp hc
    cases ds with
    | nil => exact absurd ((readCell_head a b rest).symm.trans (h a)) hb
    | cons cell' rest' =>
      obtain ⟨a', b'⟩ := cell'
      obtain ⟨-, -, hb', hrest'⟩ := cellsOk_cons.mp hd
      have hle : a' ≤ a := head_le_of_readCell_ne hd (by rwa [← h a, readCell_head])
      have hge : a ≤ a' := head_le_of_readCell_ne hc (by rwa [h a', readCell_head])
      obtain rfl : a = a' := Nat.le_antisymm hge hle
      obtain rfl : b = b' := by simpa using h a
      refine congrArg _ (ih hrest hrest' fun c => ?_)
      by_cases hca : c < a + 1
      · rw [readCell_below hrest hca, readCell_below hrest' hca]
      · have hne : c ≠ a := by omega
        simpa [readCell, hne] using h c

/-! ## The obligations -/

/-- Settles O10: a word's fields are its bytes, and Fetch reads a word or raises OutOfBounds. -/
theorem loadWordIsBigEndianInBounds : Obligations.LoadWordIsBigEndianInBounds := by
  refine ⟨fun m a h => ?_, fun m a => Memory.loadWord_eq_none.mpr, fun s h => ?_, fun s h => ?_⟩
  · refine ⟨_, Memory.loadWord_eq_some.mpr ⟨h, rfl⟩, ?_⟩
    simpa [bytesOfWord] using bytesOfWord_wordOfBytes (m.byteAt a) (m.byteAt (a + 1)) (m.byteAt (a + 2)) (m.byteAt (a + 3))
  · obtain ⟨w, hw, he⟩ | ⟨hnone, -⟩ := fetchWork_cases s
    · exact ⟨w, hw, he⟩
    · exact absurd (Memory.loadWord_eq_none.mp hnone) (by omega)
  · obtain ⟨w, hw, -⟩ | ⟨-, he⟩ := fetchWork_cases s
    · exact absurd (Memory.loadWord_eq_some.mp hw).left (by omega)
    · exact he

/-- Settles O11: what a word write in bounds leaves at its four addresses and elsewhere. -/
theorem storeWordWritesItsFourBytes : Obligations.StoreWordWritesItsFourBytes := by
  refine fun m a w hwf => ⟨fun ha => ?_, Memory.storeWord_eq_none.mpr⟩
  obtain ⟨m', h⟩ := m.storeWord_inBounds w ha
  exact ⟨m', h, Memory.storeWord_capacity h, fun k => Memory.byteAt_storeWord_inside hwf h,
    fun c => Memory.byteAt_storeWord_outside h⟩

/-- Settles O12: a word write that succeeds is in bounds, and its four bytes are read back. -/
theorem loadAfterStoreReturnsTheWord : Obligations.LoadAfterStoreReturnsTheWord :=
  fun _ _ _ _ => Memory.loadWord_storeWord

/-- Settles O13: a load of bytes, inside and outside its range, in bounds and out of bounds. -/
theorem bulkLoadOfBytes : Obligations.BulkLoadOfBytes :=
  fun m base bs hwf => ⟨fun _ => Memory.byteAt_loadBytes_inside hwf, fun _ => m.byteAt_loadBytes_outside base bs,
    Memory.loadBytes_inBounds, Memory.loadBytes_outOfBounds, rfl, m.loadBytes_capacity base bs⟩

/-- Settles O14: in bounds every word of the load is stored, else those before the first one out of bounds are. -/
theorem bulkLoadOfWords : Obligations.BulkLoadOfWords := by
  intro m base ws hwf
  obtain ⟨n, -, hread, hframe, ⟨rfl, hnone⟩ | ⟨hn, hfault, hout⟩⟩ := Memory.loadWords_cases hwf base ws
  · refine ⟨fun _ => ⟨hnone, fun k hk => (hread k hk hk).right, hframe⟩, fun hne hlarge => ?_, rfl,
      m.loadWords_capacity base ws⟩
    have hpos := List.length_pos_iff.mpr hne
    obtain ⟨hlast, -⟩ := hread (ws.length - 1) (by omega) (by omega)
    omega
  · refine ⟨fun hsmall => ?_, fun _ _ => ⟨n, hn, hfault, hout, hread, hframe⟩, rfl, m.loadWords_capacity base ws⟩
    omega

/-- Settles O15: canonical lists of cells that read alike are equal. -/
theorem canonicalMemoryIsItsBytes : Obligations.CanonicalMemoryIsItsBytes := by
  rintro ⟨capacity, cs⟩ ⟨_, ds⟩ hm hn rfl h
  exact congrArg (Memory.mk capacity) (cells_ext (Memory.wf_cells hm) (Memory.wf_cells hn) h)

end Sys2Proof.Machine
end

section
/-! PROOFS. The ALU (41_alu.md), control (40_control.md) and the six instructions (42_rtype.md). -/

namespace Sys2Proof.Machine

open Config (FunctTable)

/-! ## The ALU (R124 to R129) -/

theorem getLsbD_evalAlu_and (a b : Word) (k : Nat) : (evalAlu .and a b).getLsbD k = (a.getLsbD k && b.getLsbD k) :=
  BitVec.getLsbD_and

theorem getLsbD_evalAlu_or (a b : Word) (k : Nat) : (evalAlu .or a b).getLsbD k = (a.getLsbD k || b.getLsbD k) :=
  BitVec.getLsbD_or

theorem evalAlu_slt (a b : Word) : evalAlu .slt a b = if a.toInt < b.toInt then 1 else 0 := by
  simp [evalAlu, setLess, lessSigned]

theorem evalAlu_sltu (a b : Word) : evalAlu .sltu a b = if a.toNat < b.toNat then 1 else 0 := by
  simp [evalAlu, setLess, lessUnsigned]

theorem toNat_evalAlu_shl16 (a b : Word) : (evalAlu .shl16 a b).toNat = b.toNat * 2 ^ 16 % 2 ^ 64 := by
  rw [← Nat.shiftLeft_eq]
  exact BitVec.toNat_shiftLeft

theorem getLsbD_evalAlu_not (a b : Word) {k : Nat} (hk : k < 64) : (evalAlu .not a b).getLsbD k = !a.getLsbD k := by
  simp [evalAlu, hk]

/-- Settles O19: the two bitwise operations at every bit. -/
theorem aluAndOrAreBitwise : Obligations.AluAndOrAreBitwise :=
  fun a b k => ⟨getLsbD_evalAlu_and a b k, getLsbD_evalAlu_or a b k⟩

/-- Settles O21: the two comparisons. -/
theorem aluSetLessThan : Obligations.AluSetLessThan := fun a b => ⟨evalAlu_slt a b, evalAlu_sltu a b⟩

/-! ## Control (R100 to R106) -/

theorem controlFor_zero : controlFor 0 = some rTypeBundle := rfl

theorem controlFor_of_ne {opcode : BitVec 6} (h : opcode ≠ 0) : controlFor opcode = none := if_neg h

/-- The only bundle is that of opcode 0 (R101). -/
theorem eq_rTypeBundle_of_controlFor {opcode : BitVec 6} {ctrl : ControlSignals} (h : controlFor opcode = some ctrl) :
    ctrl = rTypeBundle := by
  by_cases hop : opcode = 0
  · rw [hop, controlFor_zero] at h
    exact (Option.some.inj h).symm
  · rw [controlFor_of_ne hop] at h
    cases h

/-- Settles O20: the one bundle derives the operation from the funct code, and no row of the table names either operation. -/
theorem shiftAndNotIgnoreAnOperand : Obligations.ShiftAndNotIgnoreAnOperand := by
  refine ⟨fun a b => ⟨toNat_evalAlu_shl16 a b, fun _ => getLsbD_evalAlu_not a b⟩, fun opcode ctrl h => ?_,
    fun f op h => ?_⟩
  · rw [eq_rTypeBundle_of_controlFor h]
    rfl
  · obtain ⟨i, hi⟩ := ofAluOp_of_lookup h 0 0 0 0
    constructor <;> rintro rfl <;> cases hi

/-- Settles O23: of the ways Decode can end, a nonzero opcode leaves only the unsupported-opcode fault. -/
theorem controlGeneratorNeverDefaults : Obligations.ControlGeneratorNeverDefaults := by
  refine fun opcode => ⟨fun h => h ▸ controlFor_zero, fun h => ⟨controlFor_of_ne h, fun t s hs => ?_⟩⟩
  subst hs
  obtain ⟨-, he⟩ | ⟨hop, -⟩ | ⟨_, hop, -⟩ := decodeWork_cases t s
  · exact ⟨_, he, rfl⟩
  · exact absurd hop h
  · exact absurd hop h

/-- Settles O24: Decode writes the bundle before the resolver is asked. -/
theorem decodeWritesTheWholeBundle : Obligations.DecodeWritesTheWholeBundle := by
  intro t s s' h
  have hctrl : s'.latches.ctrl = rTypeBundle := by
    obtain ⟨-, he⟩ | ⟨-, -, he⟩ | ⟨op, -, -, he⟩ := decodeWork_cases t s <;> rw [he] at h <;>
      obtain h | ⟨_, _, _, h⟩ := h <;> cases h <;> rfl
  rw [hctrl]
  exact ⟨rfl, rfl, rfl, rfl, rfl, rfl, rfl, rfl, rfl, rfl⟩

/-- Settles O25: the two classes, and of the ways Decode can end the one without a row. -/
theorem resolverFollowsTheTable : Obligations.ResolverFollowsTheTable := by
  refine ⟨fun _ _ => rfl, fun _ _ _ => rfl, fun t s hop hrow => ?_⟩
  obtain ⟨hne, -⟩ | ⟨-, -, he⟩ | ⟨op, -, hsome, -⟩ := decodeWork_cases t s
  · exact absurd hop hne
  · exact ⟨_, he, rfl⟩
  · rw [hrow] at hsome
    cases hsome

/-! ## The instructions (R140 to R149) -/

/-- Every instruction completes with its operation's result in `rd` and `pc` advanced (R140). -/
theorem exec_completes (i : Instr) (s : State) :
    ∃ t, exec i s = .next t ∧ t.readReg i.rd = evalAlu i.aluOp (s.readReg i.rs) (s.readReg i.rt) ∧ t.pc = s.pc + 4 :=
  ⟨_, exec_eq i s, rTypeEffect_readReg_rd .., rfl⟩

/-- Settles O1: `add` is the ALU's addition. -/
theorem addCompletesWithWrappedSum : Obligations.AddCompletesWithWrappedSum := by
  intro rd rs rt shamt s
  obtain ⟨t, h, hrd, hpc⟩ := exec_completes (.add rd rs rt shamt) s
  exact ⟨t, h, (congrArg BitVec.toNat hrd).trans (toNat_evalAlu_add _ _), hpc⟩

/-- Settles O2: `sub` is the ALU's subtraction. -/
theorem subCompletesWithWrappedDifference : Obligations.SubCompletesWithWrappedDifference := by
  intro rd rs rt shamt s
  obtain ⟨t, h, hrd, hpc⟩ := exec_completes (.sub rd rs rt shamt) s
  exact ⟨t, h, (congrArg (fun v : Word => (v.toNat : Int)) hrd).trans (toNat_evalAlu_sub _ _), hpc⟩

/-- Settles O3: `and` is the ALU's bitwise and. -/
theorem andCompletesBitByBit : Obligations.AndCompletesBitByBit := by
  intro rd rs rt shamt s
  obtain ⟨t, h, hrd, hpc⟩ := exec_completes (.and rd rs rt shamt) s
  exact ⟨t, h, fun k => (congrArg (BitVec.getLsbD · k) hrd).trans (getLsbD_evalAlu_and _ _ k), hpc⟩

/-- Settles O4: `or` is the ALU's bitwise or. -/
theorem orCompletesBitByBit : Obligations.OrCompletesBitByBit := by
  intro rd rs rt shamt s
  obtain ⟨t, h, hrd, hpc⟩ := exec_completes (.or rd rs rt shamt) s
  exact ⟨t, h, fun k => (congrArg (BitVec.getLsbD · k) hrd).trans (getLsbD_evalAlu_or _ _ k), hpc⟩

/-- Settles O5: `slt` is the ALU's signed comparison, whose two cases are those of the statement. -/
theorem sltCompletesWithSignedComparison : Obligations.SltCompletesWithSignedComparison := by
  intro rd rs rt shamt s
  obtain ⟨t, h, hrd, hpc⟩ := exec_completes (.slt rd rs rt shamt) s
  replace hrd := hrd.trans (evalAlu_slt _ _)
  exact ⟨t, h, fun hlt => hrd.trans (if_pos hlt), fun hle => hrd.trans (if_neg hle.not_gt), hpc⟩

/-- Settles O6: `sltu` is the ALU's unsigned comparison, whose two cases are those of the statement. -/
theorem sltuCompletesWithUnsignedComparison : Obligations.SltuCompletesWithUnsignedComparison := by
  intro rd rs rt shamt s
  obtain ⟨t, h, hrd, hpc⟩ := exec_completes (.sltu rd rs rt shamt) s
  replace hrd := hrd.trans (evalAlu_sltu _ _)
  exact ⟨t, h, fun hlt => hrd.trans (if_pos hlt), fun hle => hrd.trans (if_neg hle.not_gt), hpc⟩

/-- Settles O7: the fields the common behaviour leaves alone. -/
theorem rTypeFrame : Obligations.RTypeFrame := by
  intro i s t h
  rw [exec_cases h]
  exact ⟨fun r hr => rTypeEffect_readReg_ne _ _ _ _ _ _ _ hr, fun _ => rfl, rfl, rfl, rfl, rfl, rfl, rfl⟩

/-- Settles O8: outside the latches the common behaviour is that of the operation and the three registers. -/
theorem shamtNeverMatters : Obligations.ShamtNeverMatters := by
  intro i j s hop hrd hrs hrt
  rw [exec_eq i, exec_eq j, hop, hrd, hrs, hrt]
  exact ⟨rfl, rfl, rfl, rfl, rfl, rfl⟩

end Sys2Proof.Machine
end

section
/-! PROOFS. Runs of steps (44_orchestrator.md R183, 60_exceptions.md R208, 70_reset_and_hazards.md R222). -/

namespace Sys2Proof.Machine

open Config (FunctTable)

/-! ## The instruction at `pc` -/

/-- A word in bounds is the one whose bytes memory holds there. -/
theorem Memory.loadWord_of_bytes {m : Memory} {a : Nat} {w : InstrWord} (ha : a + 3 < m.capacity)
    (h : [m.byteAt a, m.byteAt (a + 1), m.byteAt (a + 2), m.byteAt (a + 3)] = bytesOfWord w) :
    m.loadWord a = some w := by
  simp only [bytesOfWord, List.cons.injEq, and_true] at h
  obtain ⟨h0, h1, h2, h3⟩ := h
  rw [Memory.loadWord_eq_some, h0, h1, h2, h3, wordOfBytes_bytesOfWord]
  exact ⟨ha, rfl⟩

/-- Settles O39: bytes that decode are the instruction's encoding, so the word at `pc` is its word. -/
theorem stepRunsTheDecodedInstruction : Obligations.StepRunsTheDecodedInstruction := by
  intro s i hrun hfetch hin hdecode
  have hbytes := decodedBytesAreTheEncoding _ _ i hdecode
  rw [List.append_nil] at hbytes
  exact step_of_instr hrun hfetch (Memory.loadWord_of_bytes hin hbytes) (decodeWord_encode i)

theorem tableWord_toNat (w : InstrWord) : tableWord 32 w.toNat = w := by
  rw [tableWord, Nat.mod_eq_of_lt w.isLt, BitVec.ofNat_toNat, BitVec.setWidth_eq]

/-- In bounds a word is placed: it is stored at `pc`, and the machine is running at Fetch. -/
theorem placeWord_of_storeWord {s : State} {w : InstrWord} {m : Memory} (h : s.mem.storeWord s.pc.toNat w = some m) :
    s.placeWord w = ((s.setStage .fetch).setStatus .running).setMem m := by
  simp only [State.placeWord, h]

/-- Settles O41: the word placed is read back at the unchanged `pc`, and it decodes to the instruction. -/
theorem placedWordRunsNext : Obligations.PlacedWordRunsNext := by
  intro s i hwf hin
  obtain ⟨m, hm⟩ := s.mem.storeWord_inBounds (encode i) hin
  rw [State.withFetchWord, tableWord_toNat, placeWord_of_storeWord hm]
  exact step_of_instr rfl rfl (Memory.loadWord_storeWord hwf hm) (decodeWord_encode i)

/-- Settles O43: the step from Fetch, by what stands at `pc` and what the decoder answers. -/
theorem firstFatalErrorWins : Obligations.FirstFatalErrorWins := by
  refine fun s hrun hfetch => ⟨step_of_outOfBounds hrun hfetch, fun w hw => ⟨fun hop => ?_, fun hop hrow => ?_,
    fun hop hrow => ?_⟩⟩
  · exact step_of_error hrun hfetch hw (decodeWord_opcode hop)
  · exact step_of_error hrun hfetch hw (decodeWord_funct hop hrow)
  · obtain ⟨op, hop'⟩ := Option.ne_none_iff_exists'.mp hrow
    obtain ⟨i, hi, -⟩ := decodeWord_row hop hop'
    exact ⟨_, (step_of_instr hrun hfetch hw hi).trans (exec_eq i _)⟩

/-- Settles O42: the decoder's first check. -/
theorem nonzeroOpcodeIsFatal : Obligations.NonzeroOpcodeIsFatal :=
  fun _ _ hrun hfetch hw hop => step_of_error hrun hfetch hw (decodeWord_opcode hop)

/-- Settles O44: the word at address 0 is 0, whose funct code has no row. -/
theorem firstStepWithNothingLoadedIsFatal : Obligations.FirstStepWithNothingLoadedIsFatal :=
  step_of_error (w := 0) rfl rfl (by decide) (decodeWord_funct (by decide) (by decide))

/-! ## What a step that answers a next state leaves -/

/-- Wherever in its cycle the machine stands, a step advances `pc` once, changes no memory and ends at Fetch (R26, R166). -/
theorem step_next {s u : State} (h : step s = .next u) : u.pc = s.pc + 4 ∧ u.mem = s.mem ∧ u.stage = .fetch := by
  have he := executeInstruction_of_step h
  obtain ⟨v, hv, -, hstage, hpc, hmem, -⟩ | ⟨f, v, hv, -⟩ | ⟨r, hv⟩ := executeInstruction_cases functTable s <;>
    rw [hv] at he <;> cases he
  exact ⟨hpc, hmem, hstage⟩

/-- A step from Fetch that answers a next state found a word in bounds at `pc`. -/
theorem step_next_inBounds {s u : State} (hfetch : s.stage = .fetch) (h : step s = .next u) :
    s.pc.toNat + 3 < s.mem.capacity := by
  obtain ⟨-, ⟨-, w, i, hw, -⟩ | ⟨hne, -⟩⟩ := step_cases h
  · exact (Memory.loadWord_eq_some.mp hw).left
  · exact absurd hfetch hne

/-- Settles O49: 4 divides both the step of `pc` and `2 ^ 64`. -/
theorem stepKeepsPcAligned : Obligations.StepKeepsPcAligned := by
  intro s u haligned h
  obtain ⟨hpc, -⟩ := step_next h
  have hsum : u.pc.toNat = (s.pc.toNat + 4) % 2 ^ 64 := hpc ▸ BitVec.toNat_add s.pc 4
  change u.pc.toNat % 4 = 0
  rw [hsum]
  omega

/-! ## Runs -/

theorem run_succ_of_next (n : Nat) {s u : State} (h : step s = .next u) :
    Host.Core.run core (n + 1) s = Host.Core.run core n u := by
  have hs : core.step s = .next u := h
  simp only [Host.Core.run, hs]

theorem run_succ_of_fault (n : Nat) {s : State} {f : Fault} (h : step s = .fault f) :
    Host.Core.run core (n + 1) s = .fault f := by
  have hs : core.step s = .fault f := h
  simp only [Host.Core.run, hs]

theorem run_succ_of_refused (n : Nat) {s : State} {r : Refusal} (h : step s = .refused r) :
    Host.Core.run core (n + 1) s = .refused r := by
  have hs : core.step s = .refused r := h
  simp only [Host.Core.run, hs]

/-- A run that reaches a state takes its first step to a state, and reaches it from there. -/
theorem run_succ_eq_next {n : Nat} {s u : State} (h : Host.Core.run core (n + 1) s = .next u) :
    ∃ v, step s = .next v ∧ Host.Core.run core n v = .next u := by
  cases hs : step s with
  | next v => exact ⟨v, rfl, run_succ_of_next n hs ▸ h⟩
  | fault f => rw [run_succ_of_fault n hs] at h; cases h
  | refused r => rw [run_succ_of_refused n hs] at h; cases h

/-- Settles O52: by induction on the steps, each of which fetches below a capacity that lies below `2 ^ 64 - 4`. -/
theorem runAdvancesPcByFourEach : Obligations.RunAdvancesPcByFourEach := by
  intro n
  induction n with
  | zero =>
    rintro s u - ⟨hfetch, hrun⟩
    cases hrun
    exact ⟨rfl, rfl, hfetch⟩
  | succ n ih =>
    rintro s u hwf ⟨hfetch, hrun⟩
    obtain ⟨v, hv, hrest⟩ := run_succ_eq_next hrun
    obtain ⟨hpc, hmem, hstage⟩ := step_next hv
    have hin := step_next_inBounds hfetch hv
    obtain ⟨-, hcap⟩ := Memory.wf_capacity hwf
    have hnowrap : v.pc.toNat = s.pc.toNat + 4 := by
      rw [hpc]
      exact BitVec.toNat_add_of_lt (y := (4 : Word)) (by simp; omega)
    obtain ⟨hpc', hmem', hstage'⟩ := ih v u (hmem ▸ hwf) ⟨hstage, hrest⟩
    exact ⟨by omega, hmem'.trans hmem, hstage'⟩

/-! ## Latches (R222) -/

/-- The three ways two outcomes are the same to a host. -/
theorem sameToHost_cases {x y : Host.Outcome State Fault Refusal} (h : SameToHost x y) :
    (∃ s u, x = .next s ∧ y = .next u ∧ AgreeButLatches s u) ∨ (∃ f, x = .fault f ∧ y = .fault f) ∨
      ∃ r, x = .refused r ∧ y = .refused r := by
  cases x with
  | next s =>
    cases y with
    | next u => exact .inl ⟨s, u, rfl, rfl, h⟩
    | fault f => exact h.elim
    | refused r => exact h.elim
  | fault f =>
    cases y with
    | next u => exact h.elim
    | fault g => exact .inr (.inl ⟨f, rfl, congrArg _ (show f = g from h).symm⟩)
    | refused r => exact h.elim
  | refused r =>
    cases y with
    | next u => exact h.elim
    | fault f => exact h.elim
    | refused q => exact .inr (.inr ⟨r, rfl, congrArg _ (show r = q from h).symm⟩)

/-- An instruction's meaning reads no latch but to keep it. -/
theorem exec_sameToHost (i : Instr) {s u : State} (h : AgreeButLatches s u) : SameToHost (exec i s) (exec i u) := by
  obtain ⟨hregs, hpc, hmem, -, hstatus, hbegun⟩ := h
  rw [exec_eq, exec_eq]
  refine ⟨?_, ?_, hmem, rfl, hstatus, hbegun⟩
  · simp only [rTypeEffect_regs, State.writeReg, readReg_congr hregs, hregs]
  · simp only [rTypeEffect_pc, hpc]

/-- A step from Fetch sees the bytes at `pc`, the registers and the run status, and no latch. -/
theorem step_sameToHost {s u : State} (h : AgreeButLatches s u) (hfetch : s.stage = .fetch) :
    SameToHost (step s) (step u) := by
  obtain ⟨hregs, hpc, hmem, hstage, hstatus, hbegun⟩ := h
  have hfetch' : u.stage = .fetch := hstage ▸ hfetch
  cases hs : s.status with
  | halted f => rw [step_halted hs, step_halted (hstatus ▸ hs)]
  | running =>
    have hs' : u.status = .running := hstatus ▸ hs
    cases hw : s.mem.loadWord s.pc.toNat with
    | none =>
      have hout := Memory.loadWord_eq_none.mp hw
      rw [step_of_outOfBounds hs hfetch hout, step_of_outOfBounds hs' hfetch' (by rwa [← hmem, ← hpc]), hpc]
    | some w =>
      have hw' : u.mem.loadWord u.pc.toNat = some w := by rw [← hmem, ← hpc, hw]
      cases hi : decodeWord w with
      | error e => rw [step_of_error hs hfetch hw hi, step_of_error hs' hfetch' hw' hi, hpc]
      | ok i =>
        rw [step_of_instr hs hfetch hw hi, step_of_instr hs' hfetch' hw' hi]
        exact exec_sameToHost i ⟨hregs, hpc, hmem, rfl, hstatus, rfl⟩

/-- Settles O53: by induction on the steps, which leave agreeing machines at Fetch or stop alike. -/
theorem latchesCarryNothingIntoARun : Obligations.LatchesCarryNothingIntoARun := by
  intro n
  induction n with
  | zero => exact fun s u h _ => h
  | succ n ih =>
    intro s u h hfetch
    obtain ⟨s', u', hs, hu, h'⟩ | ⟨f, hs, hu⟩ | ⟨r, hs, hu⟩ := sameToHost_cases (step_sameToHost h hfetch)
    · obtain ⟨-, -, hfetch'⟩ := step_next hs
      rw [run_succ_of_next n hs, run_succ_of_next n hu]
      exact ih s' u' h' hfetch'
    · rw [run_succ_of_fault n hs, run_succ_of_fault n hu]
    · rw [run_succ_of_refused n hs, run_succ_of_refused n hu]

/-! ## The strict table (R103) -/

/-- Every row of the one table is a row of the other. -/
def Extends (t' t : FunctTable) : Prop := ∀ f op, lookupFunct t f = some op → lookupFunct t' f = some op

theorem functTable_extends_strict : Extends functTable strictFunctTable := by
  intro f op h
  obtain ⟨rfl, rfl⟩ : 0x20 = f ∧ AluOp.add = op := by simpa [strictFunctTable, lookupFunct] using h
  rfl

section
variable {t t' : FunctTable} (hext : Extends t' t)
include hext

/-- A stage that completes under a table completes alike under a table that extends it: only Decode reads the table. -/
theorem runStage_of_extends {s u : State} (h : runStage t s = .done u) : runStage t' s = .done u := by
  cases hst : s.stage with
  | decode =>
    obtain ⟨-, he⟩ | ⟨-, -, he⟩ | ⟨op, hop, hrow, he⟩ := decodeWork_cases t s
    · rw [runStage_raised hst he] at h; cases h
    · rw [runStage_raised hst he] at h; cases h
    · rw [runStage_done hst he] at h
      obtain ⟨hne, -⟩ | ⟨-, hnone, -⟩ | ⟨op', -, hrow', he'⟩ := decodeWork_cases t' s
      · exact absurd hop hne
      · rw [hext _ _ hrow] at hnone; cases hnone
      · rw [hext _ _ hrow] at hrow'
        cases hrow'
        rw [runStage_done hst he', h]
  | fetch | execute | memoryAccess | writeBack => simpa only [runStage, hst, stageWork] using h

theorem runStages_of_extends {n : Nat} {s u : State} (h : runStages t n s = .done u) : runStages t' n s = .done u := by
  induction n generalizing s with
  | zero => exact h
  | succ n ih =>
    rw [runStages] at h ⊢
    cases hs : runStage t s with
    | done v =>
      rw [hs] at h
      rw [runStage_of_extends hext hs]
      exact ih h
    | raised f v => rw [hs] at h; cases h
    | refused r => rw [hs] at h; cases h

end

/-- Settles O54: the default table extends the strict one, stage by stage. -/
theorem strictTableRunsAreDefaultRuns : Obligations.StrictTableRunsAreDefaultRuns := by
  intro s u h
  cases hs : s.status with
  | halted f => rw [executeInstruction_halted _ hs] at h; cases h
  | running =>
    rw [executeInstruction_running _ hs] at h ⊢
    exact runStages_of_extends functTable_extends_strict h

end Sys2Proof.Machine
end

section
/-! PROOFS. The host interface (44_orchestrator.md R175 to R183): host writes, runs and their outcomes, Get-register. -/

namespace Sys2Proof.Machine

open Config (FunctTable NameTable)

/-! ## Construction and the halted machine -/

/-- Settles O48: a register of a constructed machine is an element of a replicated zero, and no cell is listed. -/
theorem constructionZeroesTheMachine : Obligations.ConstructionZeroesTheMachine := by
  refine fun capacity => ⟨fun i => ?_, rfl, fun a => rfl, rfl, rfl, rfl, rfl⟩
  exact Vector.getElem_replicate i.isLt

/-- Settles O51: no call changes a halted machine, and an Execute call on it is refused. -/
theorem haltedMachineStaysHalted : Obligations.HaltedMachineStaysHalted := by
  intro t names cs s f h
  have hcalls := hostCalls_halted t cs h
  exact ⟨hcalls, hcalls ▸ runOutcome_halted h, congrArg Work.answer (executeInstruction_halted t h),
    congrArg Work.answer (executeStage_halted t h), step_halted h⟩

/-! ## Host writes (R177 to R179) -/

theorem whenLoading_ready {s : State} (hrun : s.status = .running) (hbegun : s.begun = false) (write : State → Work) :
    whenLoading s write = write s := by
  simp [whenLoading, hrun, hbegun]

theorem whenLoading_begun {s : State} (hrun : s.status = .running) (hbegun : s.begun = true) (write : State → Work) :
    whenLoading s write = .refused .hostWriteAfterBegin := by
  simp [whenLoading, hrun, hbegun]

/-- A call that is neither an Execute call nor Get-register is a host write. -/
theorem hostWork_write (t : FunctTable) {c : HostCall} (hinstr : c ≠ .executeInstruction) (hstage : c ≠ .executeStage)
    (hget : ∀ key, c ≠ .getRegister key) (s : State) : ∃ write, hostWork t c s = whenLoading s write := by
  cases c with
  | executeInstruction => exact absurd rfl hinstr
  | executeStage => exact absurd rfl hstage
  | getRegister key => exact absurd rfl (hget key)
  | loadWords | loadBytes | presetReg | presetPc =>
    rw [hostWork]
    exact ⟨_, rfl⟩

theorem hostAnswer_eq_answer (t : FunctTable) (names : NameTable) {c : HostCall} (hget : ∀ key, c ≠ .getRegister key)
    (s : State) : hostAnswer t names c s = (hostWork t c s).answer := by
  cases c with
  | getRegister key => exact absurd rfl (hget key)
  | loadWords | loadBytes | presetReg | presetPc | executeInstruction | executeStage => rfl

/-- Settles O57: a preset before the first Execute call is the write itself. -/
theorem presetsSetOneRegister : Obligations.PresetsSetOneRegister := by
  intro t s i v hrun hbegun
  have hreg : hostCall t (.presetReg i v) s = s.writeReg i v := by
    rw [hostCall, hostWork, whenLoading_ready hrun hbegun, Work.after_done]
  have hpc : hostCall t (.presetPc v) s = s.setPc v := by
    rw [hostCall, hostWork, whenLoading_ready hrun hbegun, Work.after_done]
  exact ⟨hreg, hreg ▸ s.readReg_writeReg_same i v, hpc, hpc ▸ s.setPc_pc v⟩

/-- A load without an access out of bounds leaves the loaded memory. -/
theorem loadWork_after_of_none {loaded : Memory × Option Nat} (h : loaded.2 = none) (s : State) :
    (loadWork s loaded).after s = s.setMem loaded.1 := by
  simp [loadWork, h]

/-- A load with an access out of bounds halts the machine at that address, with the memory the load leaves. -/
theorem loadWork_of_some {loaded : Memory × Option Nat} {a : Nat} (h : loaded.2 = some a) (s : State) :
    ((loadWork s loaded).after s).status = .halted (.outOfBounds a .hostLoad) ∧
      ((loadWork s loaded).after s).mem = loaded.1 ∧
      (loadWork s loaded).answer = .fault (.outOfBounds a .hostLoad) := by
  simp [loadWork, h, raiseFault, Work.answer]

theorem Memory.loadWords_cons_outOfBounds {m : Memory} {a : Nat} (h : m.capacity ≤ a + 3) (w : InstrWord)
    (ws : List InstrWord) : m.loadWords a (w :: ws) = (m, some a) := by
  rw [Memory.loadWords, Memory.storeWord_eq_none.mpr h]

theorem Memory.loadBytes_cons_outOfBounds {m : Memory} {a : Nat} (h : m.capacity ≤ a) (b : Byte) (bs : List Byte) :
    m.loadBytes a (b :: bs) = (m, some a) := by
  rw [Memory.loadBytes, Memory.storeByte_eq_none.mpr h]

/-- Settles O58: a bulk load before the first Execute call is the load itself, which names an address or none. -/
theorem bulkLoadOutOfBoundsHalts : Obligations.BulkLoadOutOfBoundsHalts := by
  intro t names s base ws bs hrun hbegun
  have words (ws : List InstrWord) :
      hostWork t (.loadWords base ws) s = loadWork s (s.mem.loadWords base.toNat ws) :=
    whenLoading_ready hrun hbegun fun s => loadWork s (s.mem.loadWords base.toNat ws)
  have bytes (bs : List Byte) :
      hostWork t (.loadBytes base bs) s = loadWork s (s.mem.loadBytes base.toNat bs) :=
    whenLoading_ready hrun hbegun fun s => loadWork s (s.mem.loadBytes base.toNat bs)
  simp only [hostCall, hostAnswer, words, bytes]
  refine ⟨fun h => loadWork_after_of_none (Memory.loadWords_inBounds h) s,
    fun h => loadWork_after_of_none (Memory.loadBytes_inBounds h) s, fun w h => ?_, fun b h => ?_,
    fun a h => loadWork_of_some h s, fun a h => loadWork_of_some h s⟩
  · rw [Memory.loadWords_cons_outOfBounds h]
    exact loadWork_of_some rfl s
  · rw [Memory.loadBytes_cons_outOfBounds h]
    exact loadWork_of_some rfl s

/-! ## Runs of calls (R183) -/

section
variable {t : FunctTable} {c : HostCall} {s u : State}

theorem hostCalls_cons_of_done (h : hostWork t c s = .done u) (cs : List HostCall) :
    hostCalls t (c :: cs) s = hostCalls t cs u := by
  simp [hostCalls, h]

theorem hostCalls_cons_of_raised {f : Fault} (h : hostWork t c s = .raised f u) (cs : List HostCall) :
    hostCalls t (c :: cs) s = hostCalls t cs u := by
  simp [hostCalls, h]

theorem hostCalls_cons_of_refused {r : Refusal} (h : hostWork t c s = .refused r) (hr : r ≠ .machineHalted)
    (cs : List HostCall) : hostCalls t (c :: cs) s = .error r := by
  simp [hostCalls, h, Work.inRun_refused hr]

theorem hostCalls_append_of_ok {cs : List HostCall} (h : hostCalls t cs s = .ok u) (ds : List HostCall) :
    hostCalls t (cs ++ ds) s = hostCalls t ds u := by
  rw [hostCalls_append, h]
  rfl

theorem hostCalls_append_of_error {cs : List HostCall} {r : Refusal} (h : hostCalls t cs s = .error r)
    (ds : List HostCall) : hostCalls t (cs ++ ds) s = .error r := by
  rw [hostCalls_append, h]
  rfl

end

/-- The three outcomes of a run (R183). -/
theorem runOutcome_cases (x : Except Refusal State) :
    (∃ r, x = .error r ∧ runOutcome x = .refused r) ∨
    (∃ u, x = .ok u ∧ u.status = .running ∧ runOutcome x = .next u) ∨
    (∃ u f, x = .ok u ∧ u.status = .halted f ∧ runOutcome x = .fault f) := by
  cases x with
  | error r => exact .inl ⟨r, rfl, rfl⟩
  | ok u =>
    cases h : u.status with
    | running => exact .inr (.inl ⟨u, rfl, h, runOutcome_running h⟩)
    | halted f => exact .inr (.inr ⟨u, f, rfl, h, runOutcome_halted h⟩)

/-- One call on a running machine has the outcome of its work. -/
theorem runOutcome_singleton (t : FunctTable) (c : HostCall) {u : State} (h : u.status = .running) :
    runOutcome (hostCalls t [c] u) = (hostWork t c u).outcome := by
  obtain ⟨v, hw, hv⟩ | ⟨f, v, hw, hv⟩ | ⟨r, hw, hr⟩ := hostWork_running t c h
  · rw [hostCalls_cons_of_done hw, hw]
    exact runOutcome_running hv
  · rw [hostCalls_cons_of_raised hw, hw]
    exact runOutcome_halted hv
  · rw [hostCalls_cons_of_refused hw hr, hw]
    rfl

/-- Settles O56: further calls leave a halted machine and a refused run, and go on from a running machine. -/
theorem runOutcomeIsSettled : Obligations.RunOutcomeIsSettled := by
  intro t cs s
  obtain ⟨r, hx, ho⟩ | ⟨u, hx, hu, ho⟩ | ⟨u, f, hx, hu, ho⟩ := runOutcome_cases (hostCalls t cs s) <;> rw [ho]
  · refine ⟨fun _ h => (nomatch h), ?_, fun _ h => (nomatch h)⟩
    rintro _ ⟨⟩ ds
    rw [hostCalls_append_of_error hx, runOutcome_error]
  · refine ⟨fun _ h => (nomatch h), fun _ h => (nomatch h), ?_⟩
    rintro _ ⟨⟩ c
    rw [hostCalls_append_of_ok hx, runOutcome_singleton t c hu]
  · refine ⟨?_, fun _ h => (nomatch h), fun _ h => (nomatch h)⟩
    rintro _ ⟨⟩ ds
    rw [hostCalls_append_of_ok hx, hostCalls_halted t ds hu, runOutcome_halted hu]

/-! ## The mark of the first Execute call (R177, R179) -/

/-- An Execute call that is not refused leaves the mark set. -/
theorem hostCall_begun_of_execute (t : FunctTable) {c : HostCall} (hc : c = .executeInstruction ∨ c = .executeStage)
    (s : State) : (hostCall t c s).begun = true ∨ ∃ r, hostWork t c s = .refused r := by
  obtain rfl | rfl := hc <;> simp only [hostCall, hostWork]
  · obtain ⟨u, h, -, -, -, -, hbegun⟩ | ⟨f, u, h, -, -, -, hbegun, -⟩ | h := executeInstruction_cases t s
    · exact .inl (h ▸ hbegun)
    · exact .inl (h ▸ hbegun)
    · exact .inr h
  · obtain ⟨-, h⟩ | ⟨f, -, h⟩ := executeStage_cases t s
    · rw [h]
      obtain ⟨u, hu, -, -, -, hbegun, -⟩ | ⟨f, u, hu, -, -, -, -, hbegun, -⟩ | ⟨hu, -⟩ := runStage_cases t s.markBegun
      · exact .inl (hu ▸ hbegun)
      · exact .inl (hu ▸ hbegun)
      · exact .inr ⟨_, hu⟩
    · exact .inr ⟨_, h⟩

/-- An Execute call on a running machine at Fetch is not refused: no stage before MemoryAccess refuses, and Decode has by
then latched the bundle of opcode 0. -/
theorem execute_not_refused (t : FunctTable) {c : HostCall} (hc : c = .executeInstruction ∨ c = .executeStage) {s : State}
    (hrun : s.status = .running) (hfetch : s.stage = .fetch) (r : Refusal) : hostWork t c s ≠ .refused r := by
  obtain rfl | rfl := hc <;> simp only [hostWork]
  · rw [executeInstruction_running t hrun, hfetch]
    obtain ⟨-, u, h⟩ | ⟨w, -, -, u, h⟩ | ⟨w, -, -, -, u, h⟩ | ⟨w, op, -, -, -, h⟩ :=
      runStages_fetch_cases t (s := s.markBegun) hfetch <;> exact h ▸ nofun
  · rw [executeStage_running t hrun]
    obtain ⟨u, h, -⟩ | ⟨f, u, h, -⟩ | ⟨-, hst, -⟩ := runStage_cases t s.markBegun
    · exact h ▸ nofun
    · exact h ▸ nofun
    · exact absurd (hfetch.symm.trans hst) nofun

/-- No call clears the mark. -/
theorem hostCall_begun (t : FunctTable) (c : HostCall) {s : State} (hbegun : s.begun = true) :
    (hostCall t c s).begun = true := by
  by_cases hc : c = .executeInstruction ∨ c = .executeStage
  · obtain h | ⟨r, h⟩ := hostCall_begun_of_execute t hc s
    · exact h
    · rwa [hostCall, h]
  · obtain ⟨hinstr, hstage⟩ := not_or.mp hc
    by_cases hget : ∃ key, c = .getRegister key
    · obtain ⟨key, rfl⟩ := hget
      exact hbegun
    · obtain ⟨write, hwrite⟩ := hostWork_write t hinstr hstage (not_exists.mp hget) s
      obtain ⟨-, hready, -⟩ | ⟨r, h, -⟩ := whenLoading_cases s write
      · rw [hbegun] at hready; cases hready
      · rwa [hostCall, hwrite, h]

/-- Settles O55: the mark is set by an Execute call and never cleared, and a host write under it is refused. -/
theorem hostWritesEndWhenExecutionBegins : Obligations.HostWritesEndWhenExecutionBegins := by
  refine fun t names c s => ⟨hostCall_begun t c, fun hrun hfetch hc => ?_, fun hbegun hrun hinstr hstage hget => ?_⟩
  · obtain h | ⟨r, h⟩ := hostCall_begun_of_execute t hc s
    · exact h
    · exact absurd h (execute_not_refused t hc hrun hfetch r)
  · obtain ⟨write, hwrite⟩ := hostWork_write t hinstr hstage hget s
    rw [whenLoading_begun hrun hbegun] at hwrite
    refine ⟨by rw [hostCall, hwrite, Work.after_refused], ?_, fun s0 before after hbefore => ?_⟩
    · rw [hostAnswer_eq_answer t names hget, hwrite]
      rfl
    · rw [hostCalls_append_of_ok hbefore, hostCalls_cons_of_refused hwrite (by decide), runOutcome_error]

/-! ## Get-register (R180 to R182) -/

/-- What well-formed names are. -/
theorem nameTable_wellFormed_iff (names : NameTable) : names.wellFormed = true ↔
    distinct (names.gpr.map Prod.fst) = true ∧ names.namesEvery = true ∧ names.pc ∉ names.gpr.map Prod.fst := by
  simp [NameTable.wellFormed, NameTable.namesDistinct, NameTable.pcNameReserved, and_assoc]

/-- Settles O59: an index in range, a listed name and the PC's name exclude each other's cases of Get-register. -/
theorem getRegisterAnswersByNameAndIndex : Obligations.GetRegisterAnswersByNameAndIndex := by
  intro t names s hwf
  obtain ⟨hdistinct, -, hpc⟩ := (nameTable_wellFormed_iff names).mp hwf
  refine ⟨fun i => ?_, fun n hn => if_neg (by omega), fun name i hmem => ?_, if_pos rfl, fun name hne hnot => ?_,
    fun key => ⟨rfl, rfl⟩⟩
  · have hi : i.toNat < 32 := i.isLt
    simp [getRegister, hi]
  · have hne : name ≠ names.pc := by
      rintro rfl
      exact hpc (List.mem_map_of_mem hmem)
    simp [getRegister, hne, lookupName_of_mem hdistinct hmem]
  · simp [getRegister, hne, lookupName_of_not_mem hnot]

end Sys2Proof.Machine
end

section
/-! PROOFS. The assembler (30_encoding.md R84). -/

namespace Sys2Proof.Machine

open Config (NameTable)

/-! ## Mnemonics -/

/-- The six mnemonics are the six operations. -/
theorem lookupMnemonic_eq_some (m : String) (op : AluOp) : lookupMnemonic m = some op ↔
    (m = "add" ∧ op = .add) ∨ (m = "sub" ∧ op = .sub) ∨ (m = "and" ∧ op = .and) ∨
    (m = "or" ∧ op = .or) ∨ (m = "slt" ∧ op = .slt) ∨ (m = "sltu" ∧ op = .sltu) := by
  constructor
  · intro h
    unfold lookupMnemonic at h
    split_ifs at h <;> simp_all
  · rintro (⟨rfl, rfl⟩ | ⟨rfl, rfl⟩ | ⟨rfl, rfl⟩ | ⟨rfl, rfl⟩ | ⟨rfl, rfl⟩ | ⟨rfl, rfl⟩) <;> rfl

theorem lookupMnemonic_isSome (m : String) : (lookupMnemonic m).isSome = mnemonics.contains m := by
  rw [Bool.eq_iff_iff, Option.isSome_iff_exists]
  simp only [lookupMnemonic_eq_some, mnemonics, List.contains_iff_mem, List.mem_cons, List.not_mem_nil, or_false]
  grind

/-- The operation of a mnemonic is one that an instruction has. -/
theorem ofAluOp_of_lookupMnemonic {m : String} {op : AluOp} (h : lookupMnemonic m = some op) (rd rs rt : RegIdx)
    (shamt : BitVec 5) : ∃ i, Instr.ofAluOp op rd rs rt shamt = some i := by
  obtain ⟨-, rfl⟩ | ⟨-, rfl⟩ | ⟨-, rfl⟩ | ⟨-, rfl⟩ | ⟨-, rfl⟩ | ⟨-, rfl⟩ := (lookupMnemonic_eq_some m op).mp h <;>
    exact ⟨_, rfl⟩

/-! ## Register spellings -/

/-- The numeric spellings are `$n` for the 32 indices, decimal without leading zeros. -/
theorem numericRegisters_eq :
    numericRegisters = (List.range 32).map fun n => ("$" ++ toString n, BitVec.ofNat 5 n) := by
  decide

theorem distinct_numericRegisters : distinct (numericRegisters.map Prod.fst) = true := by
  decide

theorem lookupName_numericRegisters {n : Nat} (hn : n < 32) :
    lookupName numericRegisters ("$" ++ toString n) = some (BitVec.ofNat 5 n) := by
  refine lookupName_of_mem distinct_numericRegisters ?_
  rw [numericRegisters_eq]
  exact List.mem_map.mpr ⟨n, List.mem_range.mpr hn, rfl⟩

theorem mem_numericRegisters_fst {operand : String} (h : operand ∈ numericRegisters.map Prod.fst) :
    ∃ n, n < 32 ∧ operand = "$" ++ toString n := by
  rw [numericRegisters_eq, List.map_map, List.mem_map] at h
  obtain ⟨n, hn, rfl⟩ := h
  exact ⟨n, List.mem_range.mp hn, rfl⟩

section
variable {names : NameTable} {name : String}

/-- A listed name comes before the numeric spellings. -/
theorem lookupName_registerSpellings_of_mem (hwf : names.wellFormed = true) {i : RegIdx} (h : (name, i) ∈ names.gpr) :
    lookupName (registerSpellings names) name = some i := by
  obtain ⟨hdistinct, -⟩ := (nameTable_wellFormed_iff names).mp hwf
  rw [registerSpellings, lookupName_append, lookupName_of_mem hdistinct h, Option.some_or]

/-- Where a string is no listed name, the numeric spellings decide. -/
theorem lookupName_registerSpellings_of_not_mem (h : name ∉ names.gpr.map Prod.fst) :
    lookupName (registerSpellings names) name = lookupName numericRegisters name := by
  rw [registerSpellings, lookupName_append, lookupName_of_not_mem h, Option.none_or]

end

/-! ## Lines -/

/-- A line assembles to the instruction of its mnemonic's operation and its operands' registers, with `shamt` 0. -/
theorem assemble_eq_some {names : NameTable} {l : AsmLine} {i : Instr} : assemble names l = some i ↔
    ∃ op rd rs rt, lookupMnemonic l.mnemonic = some op ∧ lookupName (registerSpellings names) l.rd = some rd ∧
      lookupName (registerSpellings names) l.rs = some rs ∧ lookupName (registerSpellings names) l.rt = some rt ∧
      Instr.ofAluOp op rd rs rt 0 = some i := by
  unfold assemble
  constructor
  · intro h
    split at h
    · exact ⟨_, _, _, _, ‹_›, ‹_›, ‹_›, ‹_›, h⟩
    · cases h
  · rintro ⟨op, rd, rs, rt, hop, hrd, hrs, hrt, h⟩
    simp only [hop, hrd, hrs, hrt, h]

/-- A line is well-formed exactly when its mnemonic has an operation and its operands have registers. -/
theorem asmLine_wellFormed_iff (names : NameTable) (l : AsmLine) : l.wellFormed (registerSpellings names) = true ↔
    (∃ op, lookupMnemonic l.mnemonic = some op) ∧ (∃ rd, lookupName (registerSpellings names) l.rd = some rd) ∧
      (∃ rs, lookupName (registerSpellings names) l.rs = some rs) ∧
      ∃ rt, lookupName (registerSpellings names) l.rt = some rt := by
  simp only [AsmLine.wellFormed, ← lookupMnemonic_isSome, ← lookupName_isSome, List.all_cons, List.all_nil,
    Bool.and_true, Bool.and_eq_true, Option.isSome_iff_exists]

theorem assemble_isSome (names : NameTable) (l : AsmLine) :
    (assemble names l).isSome = l.wellFormed (registerSpellings names) := by
  rw [Bool.eq_iff_iff, Option.isSome_iff_exists, asmLine_wellFormed_iff]
  constructor
  · rintro ⟨i, hi⟩
    obtain ⟨op, rd, rs, rt, hop, hrd, hrs, hrt, -⟩ := assemble_eq_some.mp hi
    exact ⟨⟨op, hop⟩, ⟨rd, hrd⟩, ⟨rs, hrs⟩, ⟨rt, hrt⟩⟩
  · rintro ⟨⟨op, hop⟩, ⟨rd, hrd⟩, ⟨rs, hrs⟩, ⟨rt, hrt⟩⟩
    obtain ⟨i, hi⟩ := ofAluOp_of_lookupMnemonic hop rd rs rt 0
    exact ⟨i, assemble_eq_some.mpr ⟨op, rd, rs, rt, hop, hrd, hrs, hrt, hi⟩⟩

/-- Settles O60: the mnemonics, the spellings of registers, and the lines that assemble. -/
theorem assemblerReadsExactlyWellFormedLines : Obligations.AssemblerReadsExactlyWellFormedLines := by
  refine fun names l => ⟨lookupMnemonic_eq_some, fun name i hwf hmem => lookupName_registerSpellings_of_mem hwf hmem,
    fun n hn hnot => ?_, fun operand hnot hnum => ?_, assemble_isSome names l, fun i hi => ?_⟩
  · rw [lookupName_registerSpellings_of_not_mem hnot, lookupName_numericRegisters hn]
  · rw [lookupName_registerSpellings_of_not_mem hnot]
    refine lookupName_of_not_mem fun hmem => ?_
    obtain ⟨n, hn, he⟩ := mem_numericRegisters_fst hmem
    exact hnum n hn he
  · obtain ⟨op, rd, rs, rt, hop, hrd, hrs, hrt, h⟩ := assemble_eq_some.mp hi
    obtain ⟨hop', hrd', hrs', hrt', hshamt⟩ := ofAluOp_spec h
    exact ⟨hshamt, hop' ▸ hop, hrd' ▸ hrd, hrs' ▸ hrs, hrt' ▸ hrt⟩

end Sys2Proof.Machine
end
